-- ==== Sys2Proof/Word.lean ====
section
/-! DEFINITION. The word types of the core: byte, 64-bit word, 20-bit command word, 512-bit key operand
(spec/00_scope.md R11, spec/30_encoding.md R71). Addition on them wraps (R13): it is `BitVec` addition. -/

namespace Sys2Proof

/-- A byte: 8 bits (R11). -/
abbrev Byte := BitVec 8

/-- A word of `h`, `t`, `v`, `m` and `IV`: 64 bits, unsigned, with addition modulo 2^64 (R8, R11, R13). -/
abbrev Word := BitVec 64

/-- The command word `cmd_word`: 20 bits (R9, R71, R72). -/
abbrev CmdWord := BitVec 20

/-- The key operand `cmd_key`: 512 bits (R9, R71, R74). -/
abbrev KeyOperand := BitVec 512

end Sys2Proof
end

