-- ==== Sys2Proof/Machine/Bytes.lean ====
section
/-! DEFINITION. Byte order: the core is little-endian everywhere (spec/00_scope.md R14, spec/20_memory.md R54). -/

namespace Sys2Proof.Machine

/-- The number that a byte sequence stands for, byte 0 least significant: the sum of `B[j] * 2^(8j)` (R14). -/
def leNat : List Byte → Nat
  | [] => 0
  | b :: bs => b.toNat + 2 ^ 8 * leNat bs

/-- `LE64(B, k)`: bytes 8k..8k+7 as a word, byte 8k least significant (R14). -/
def le64 (bytes : List Byte) (k : Nat) : Word :=
  BitVec.ofNat 64 (leNat ((bytes.drop (8 * k)).take 8))

/-- `byte(w, j) = (w >> (8j)) and 0xFF` (R14). -/
def byteOf (w : Word) (j : Nat) : Byte := (w >>> (8 * j)).setWidth 8

end Sys2Proof.Machine
end

