-- ==== Sys2Proof/Machine/Flags.lean ====
section
/-! DEFINITION. The core has no condition codes, flags or predicates (spec/10_state.md R33). The one carry it computes is the
one inside `CTR_ADD`, which goes into the high counter word and is not kept (spec/41_absorb.md R122). -/

namespace Sys2Proof.Machine

/-- The wrap test of `CTR_ADD`: the NEW low word is smaller than what was added (R122). -/
def counterCarry (newLow n : Word) : Bool := decide (newLow < n)

end Sys2Proof.Machine
end

