-- ==== Sys2Proof/Machine/Mixer.lean ====
section
/-! DEFINITION. The 12-round mixer as functions on words (spec/42_compress.md): `rotr64`, `G`, `ROUND`, the working vector and
the feed-forward. `v` and `m` are local values of one compression, never state (spec/10_state.md R29). -/

namespace Sys2Proof.Machine

/-- Sixteen words: the working vector `v[0..15]`, or the message words `m[0..15]` (R29). -/
abbrev Words16 := Vector Word 16

/-- `rotr64(x, n) = ((x >> n) or (x << (64 - n))) mod 2^64` (R13, R141). -/
def rotr64 (x : Word) (n : Nat) : Word := (x >>> n) ||| (x <<< (64 - n))

/-- The mixing primitive `G(v, a, b, c, d, x, y)`: its eight statements, in order (R143). -/
def g (v : Words16) (a b c d : Fin 16) (x y : Word) : Words16 :=
  let v := v.set a (v[a] + v[b] + x)
  let v := v.set d (rotr64 (v[d] ^^^ v[a]) 32)
  let v := v.set c (v[c] + v[d])
  let v := v.set b (rotr64 (v[b] ^^^ v[c]) 24)
  let v := v.set a (v[a] + v[b] + y)
  let v := v.set d (rotr64 (v[d] ^^^ v[a]) 16)
  let v := v.set c (v[c] + v[d])
  v.set b (rotr64 (v[b] ^^^ v[c]) 63)

/-- The row `SIGMA[r mod 12]` that round `r` uses (R146). -/
def sigmaRow (r : Nat) : Vector (Fin 16) 16 := sigma[r % 12]'(Nat.mod_lt r (by decide))

/-- `ROUND(v, m, r)`: four column calls, then four diagonal calls (R146). -/
def mixRound (v m : Words16) (r : Nat) : Words16 :=
  let s := sigmaRow r
  let v := g v 0 4 8 12 m[s[0]] m[s[1]]
  let v := g v 1 5 9 13 m[s[2]] m[s[3]]
  let v := g v 2 6 10 14 m[s[4]] m[s[5]]
  let v := g v 3 7 11 15 m[s[6]] m[s[7]]
  let v := g v 0 5 10 15 m[s[8]] m[s[9]]
  let v := g v 1 6 11 12 m[s[10]] m[s[11]]
  let v := g v 2 7 8 13 m[s[12]] m[s[13]]
  g v 3 4 9 14 m[s[14]] m[s[15]]

/-- The working vector at the start of a compression (R144). -/
def workingVector (h : Vector Word 8) (t0 t1 : Word) (last : Bool) : Words16 :=
  let v : Words16 := h ++ iv
  let v := v.set 12 (v[12] ^^^ t0)
  let v := v.set 13 (v[13] ^^^ t1)
  if last then v.set 14 (~~~ v[14]) else v

/-- The twelve rounds, r = 0..11 in ascending order (R149). -/
def mixRounds (v m : Words16) : Words16 :=
  (List.range 12).foldl (fun v r => mixRound v m r) v

/-- The feed-forward `h[i] xor v[i] xor v[i + 8]`, with the old `h[i]` (R142). -/
def feedForward (h : Vector Word 8) (v : Words16) : Vector Word 8 :=
  Vector.ofFn fun i => h[i] ^^^ v[i.val] ^^^ v[i.val + 8]

/-- The chained state a compression leaves, from the chained state, the counter, the message words and `last` (R149). -/
def compressWords (h : Vector Word 8) (t0 t1 : Word) (m : Words16) (last : Bool) : Vector Word 8 :=
  feedForward h (mixRounds (workingVector h t0 t1 last) m)

end Sys2Proof.Machine
end

