-- ==== Sys2Proof/Machine/Operands.lean ====
section
/-! DEFINITION. The operand forms: the two 8-bit fields, unsigned and unscaled (spec/30_encoding.md R74 to R78), the bytes of
the key operand (R74), INIT's parameter check (spec/40_init.md R101) and the digest byte an index names
(spec/43_final_output.md R174). -/

namespace Sys2Proof.Machine

/-- `key[j] = cmd_key[8j+7 : 8j]` (R74). -/
def keyByte (key : KeyOperand) (j : Nat) : Byte := key.extractLsb' (8 * j) 8

/-- `key[0..keylen-1]`, byte 0 first (R74). -/
def keyBytes (keylen : Byte) (key : KeyOperand) : List Byte :=
  (List.range keylen.toNat).map (keyByte key)

/-- INIT's parameter check: the condition that raises InvalidParameter (R101). -/
def paramsInvalid (outlen keylen : Byte) : Bool :=
  decide (outlen.toNat = 0 ∨ outlen.toNat > 64 ∨ keylen.toNat > 64)

/-- `digest[idx] = (h[idx >> 3] >> (8 * (idx and 7))) and 0xFF`; none when there is no word `h[idx >> 3]` (R174). -/
def digestByte (h : Vector Word 8) (idx : Nat) : Option Byte :=
  (h[idx >>> 3]?).map fun w => byteOf w (idx &&& 7)

end Sys2Proof.Machine
end

