-- ==== Sys2Proof/Config.lean ====
section
/-! DEFINITION. What the spec leaves to an implementation and the model has to name: the contents after reset that
spec/10_state.md R36 calls unspecified. The core has no other parameter (spec/00_scope.md R8, spec/92_eei_decisions.md:
"the hardware has no parameter a model must take as an argument"), and no instruction's result is left open, so there is no
free value here. -/

namespace Sys2Proof

/-- What each word of `h` and `t` holds after reset. DESIGN CHOICE (log 1): R36 leaves it unspecified. Unsafe. -/
def Config.resetWord : Word := 0

/-- What `filled` and `outlen` hold after reset. DESIGN CHOICE (log 1): R36 leaves them unspecified. Unsafe. -/
def Config.resetCount : Byte := 0

/-- What a byte of `buf` that the memory list does not list reads as. DESIGN CHOICE (log 2): R36 leaves `buf` unspecified
after reset. Unsafe. After INIT it is the zero that R104 writes. -/
abbrev Config.unlistedByte : Byte := 0

end Sys2Proof
end

