-- ==== Sys2Proof/Machine/Memory.lean ====
section
/-! DEFINITION. The block buffer `buf` as plain data: the core's only memory, 128 bytes at indices 0..127
(spec/10_state.md R35, spec/20_memory.md R50), held as a list of cells in one canonical form, with its one-byte read and write. -/

namespace Sys2Proof.Machine

/-- The buffer: (index, byte) cells with indices strictly rising, none past 127, and no cell equal to what an unlisted index
reads as (`Memory.wf`). -/
abbrev Memory := List Host.Cell

/-- The byte at an index. -/
def Memory.read : Memory → Nat → Byte
  | [], _ => Config.unlistedByte
  | (k, b) :: rest, a => if k = a then b else Memory.read rest a

/-- Set the byte at an index, keeping the canonical form: a byte equal to the unlisted byte removes the cell. -/
def Memory.write : Memory → Nat → Byte → Memory
  | [], a, v => if v = Config.unlistedByte then [] else [(a, v)]
  | (k, b) :: rest, a, v =>
    if a < k then if v = Config.unlistedByte then (k, b) :: rest else (a, v) :: (k, b) :: rest
    else if a = k then if v = Config.unlistedByte then rest else (a, v) :: rest
    else (k, b) :: Memory.write rest a v

/-- Canonical from index `lo` on. -/
def Memory.wfFrom : Nat → Memory → Bool
  | _, [] => true
  | lo, (k, b) :: rest =>
    decide (lo ≤ k) && decide (k < 128) && decide (b ≠ Config.unlistedByte) && Memory.wfFrom (k + 1) rest

/-- The canonical form: indices strictly rising and below 128, no cell equal to the unlisted byte. Equal buffers are then
equal lists. -/
def Memory.wf (m : Memory) : Bool := Memory.wfFrom 0 m

/-- The buffer with every byte zero: what INIT's full clear leaves (R104, R52 kind 2). Nothing is listed, since the unlisted
byte is zero. -/
def Memory.zeroed : Memory := []

/-- Write zero to `n` indices from `a` up. -/
def Memory.clear : Memory → Nat → Nat → Memory
  | m, _, 0 => m
  | m, a, n + 1 => Memory.clear (m.write a 0) (a + 1) n

end Sys2Proof.Machine
end

