-- ==== Sys2Proof/Syntax.lean ====
section
/-! DEFINITION. The commands of the core as syntax, one constructor per row of spec/opcode_table.json, and what the host
presents at the command port (spec/30_encoding.md R71, R73, R81). -/

namespace Sys2Proof

/-- One command as the host presents it: the pair (`cmd_word`, `cmd_key`) of R71. -/
structure PortCommand where
  word : CmdWord
  key  : KeyOperand
deriving DecidableEq, Repr

/-- Why a command word is reserved: the three cases of R80. -/
inductive Reserved where
  /-- R80 (a): `op` is 0x0 or 0x5 to 0xF. -/
  | opcode
  /-- R80 (b): `op` is 0x2 or 0x4 and `b` is not zero. -/
  | operandB
  /-- R80 (c): `op` is 0x3 and bits 15..0 are not zero. -/
  | finalOperand
deriving DecidableEq, Repr

/-- The four commands (R73). -/
inductive Instr where
  /-- `INIT outlen, keylen, key` (spec/40_init.md R100): both lengths take any 8-bit value (R74); `key` is the key operand,
  key byte j at bits 8j+7..8j. -/
  | init (outlen keylen : Byte) (key : KeyOperand)
  /-- `ABSORB byte` (spec/41_absorb.md R120). -/
  | absorb (byte : Byte)
  /-- `FINAL` (spec/43_final_output.md R170). -/
  | final
  /-- `RDDIG idx` (spec/43_final_output.md R175). -/
  | rddig (idx : Byte)
deriving DecidableEq, Repr

end Sys2Proof
end

