-- ==== Sys2Proof/Machine/State.lean ====
section
/-! DEFINITION. The state of one core: the context of spec/10_state.md R20 and the command port of spec/30_encoding.md R71;
the reasons a step can stop; and the state after reset (R36, spec/70_reset_and_hazards.md R240). -/

namespace Sys2Proof.Machine

/-- The life-cycle register (R26). Its numeric encoding is not observable and is left to the model (log 8). -/
inductive Phase where
  /-- No valid context. -/
  | idle
  /-- A context is absorbing. -/
  | active
  /-- The context has been finalized and its digest is readable. -/
  | done
deriving DecidableEq, Repr

/-- `rsp_code` (R79). The values 2 and 3 are never produced, so the type does not have them (U8). -/
inductive RspCode where
  /-- 0, `OK`. -/
  | ok
  /-- 1, `INVALID_PARAMETER`. -/
  | invalidParameter
deriving DecidableEq, Repr

/-- The response of one accepted command: (`rsp_code`, `rsp_data`) (R71, R79). -/
structure Response where
  code : RspCode
  data : Byte
deriving DecidableEq, Repr

/-- One thing the outside does to the core: the host presents a command (R71), or reset is applied (R240). -/
inductive PortInput where
  | command (c : PortCommand)
  | reset
deriving DecidableEq, Repr

/-- Why the machine stops with a fault. Both can happen only in states that no run reaches (log 7): the spec's legal values of
`filled` and `outlen` (R20) rule them out. -/
inductive Fault where
  /-- A byte write at an index outside `buf` (the `requires` clause of R56). Raised by ABSORB when `filled` exceeds 128.
  Safe: the spec says no such address exists. -/
  | bufferIndex
  /-- A digest byte of a word past `h[7]`. Raised by RDDIG when 64 ≤ idx < outlen. Safe: the spec says no such word exists. -/
  | chainedWord
deriving DecidableEq, Repr

/-- Why a step has no next state. The first three are the three items of spec/60_exceptions.md R217: no response and no next
state are defined. All are safe: nothing can be proved about what follows. -/
inductive Refusal where
  /-- The command word is reserved (R80, R217 item 1). Raised by the step, which cannot decode the word. -/
  | reservedWord (why : Reserved)
  /-- ABSORB or FINAL when `phase` is not ACTIVE, RDDIG when it is not DONE (R217 item 2). Raised by those commands. -/
  | wrongPhase
  /-- RDDIG with `idx >= outlen` (R217 item 3). Raised by RDDIG. -/
  | indexBeyondOutlen
  /-- The command has no meaning in the model yet. Raised by no command: all four have their meaning. -/
  | notModelled (mnemonic : String)
deriving DecidableEq, Repr

/-- The state. The first seven fields are the whole context of R20; the last two are the model's own picture of the command
port (log 3, log 4). -/
structure State where
  /-- `h[0..7]`, the chained state (R21). -/
  h : Vector Word 8
  /-- `t[0]`, the low word of the byte counter (R22). -/
  t0 : Word
  /-- `t[1]`, the high word of the byte counter (R22). -/
  t1 : Word
  /-- `buf[0..127]`, the block buffer (R35). -/
  buf : Memory
  /-- `filled`, the count of valid bytes in `buf`, an 8-bit register with legal values 0..128 (R24). -/
  filled : Byte
  /-- `outlen`, the requested digest length, an 8-bit register with legal values 1..64 (R25). -/
  outlen : Byte
  /-- `phase`, the life-cycle register (R26). -/
  phase : Phase
  /-- What the outside will do at the port, in order; the head comes next (log 3). -/
  pending : List PortInput
  /-- The responses produced so far, oldest first (R79, log 4). -/
  responses : List Response
deriving DecidableEq, Repr

/-- The machine right after reset: `phase` is IDLE (R36, R240). The spec gives no value to the other registers; they hold the
values of Config (log 1, log 2). Nothing is pending and no response has been given. -/
def State.reset : State :=
  { h := Vector.replicate 8 Config.resetWord
    t0 := Config.resetWord
    t1 := Config.resetWord
    buf := []
    filled := Config.resetCount
    outlen := Config.resetCount
    phase := .idle
    pending := []
    responses := [] }

end Sys2Proof.Machine
end

