-- ==== Sys2Proof/Machine/Ops.lean ====
section
/-! DEFINITION. The operations the commands share: `MemRead`, `MemWrite` and the tail clear (spec/20_memory.md R52, R56),
`CTR_ADD` and `ABSORB_BYTE` (spec/41_absorb.md R121, R122), `COMPRESS` (spec/42_compress.md R149), the response
(spec/30_encoding.md R79), the phase check (spec/10_state.md R27), and the one exception (spec/60_exceptions.md R214). -/

namespace Sys2Proof.Machine

/-- The `n` bytes of the buffer from index `addr`. -/
def Memory.bytes (m : Memory) (addr n : Nat) : List Byte :=
  (List.range' addr n).map m.read

/-- `MemRead(addr, n)`: `n` bytes as a little-endian number; it requires `addr + n <= 128` (R56). -/
def memRead (m : Memory) (addr n : Nat) : Except Fault Nat :=
  if addr + n ≤ 128 then .ok (leNat (m.bytes addr n)) else .error .bufferIndex

/-- Write the low `n` bytes of `e` from index `addr` up, least significant first. -/
def Memory.writeLE : Memory → Nat → Nat → Nat → Memory
  | m, _, 0, _ => m
  | m, addr, n + 1, e => Memory.writeLE (m.write addr (BitVec.ofNat 8 e)) (addr + 1) n (e / 2 ^ 8)

/-- `MemWrite(addr, n, e)`: the low `8n` bits of `e`, little-endian; it requires `addr + n <= 128` (R56). -/
def memWrite (m : Memory) (addr n e : Nat) : Except Fault Memory :=
  if addr + n ≤ 128 then .ok (m.writeLE addr n e) else .error .bufferIndex

/-- Message word `m[j] = MemRead(8j, 8) = LE64(buf, j)` (R145, R53). The read is in range for every `j`. -/
def messageWord (m : Memory) (j : Fin 16) : Word := BitVec.ofNat 64 (leNat (m.bytes (8 * j.val) 8))

/-- The sixteen message words: all 128 bytes, whatever `filled` is (R145). -/
def messageWords (m : Memory) : Words16 := Vector.ofFn (messageWord m)

/-- FINAL's padding: `buf[j] <- 0` for j = filled..127, nothing when `filled` is 128 (R171, R52 kind 3). -/
def clearTail (m : Memory) (filled : Byte) : Memory := m.clear filled.toNat (128 - filled.toNat)

/-- `CTR_ADD(n)`: add a byte count to the 128-bit counter, the carry going from the low to the high word; the high word wraps
(R122, R124). -/
def ctrAdd (n : Byte) (s : State) : State :=
  let low := s.t0 + n.setWidth 64
  { s with t0 := low, t1 := if counterCarry low (n.setWidth 64) then s.t1 + 1 else s.t1 }

/-- `COMPRESS(last)`: it reads `h`, `t` and the whole of `buf`, and writes `h` and nothing else (R149, R150). -/
def compress (last : Bool) (s : State) : State :=
  { s with h := compressWords s.h s.t0 s.t1 (messageWords s.buf) last }

/-- The first step of `ABSORB_BYTE`: a full buffer is counted, compressed with `last = false`, and emptied (R121). -/
def flushFull (s : State) : State :=
  if s.filled = 128 then { compress false (ctrAdd 128 s) with filled := 0 } else s

/-- The second step of `ABSORB_BYTE`: `MemWrite(filled, 1, b)`, then `filled` rises by one (R121). -/
def appendByte (b : Byte) (s : State) : Except Fault State :=
  match memWrite s.buf s.filled.toNat 1 b.toNat with
  | .ok buf => .ok { s with buf := buf, filled := s.filled + 1 }
  | .error f => .error f

/-- `ABSORB_BYTE(b)` (R121). -/
def absorbByte (b : Byte) (s : State) : Except Fault State := appendByte b (flushFull s)

/-- `ABSORB_BYTE` for each byte in order (R105). -/
def absorbBytes : List Byte → State → Except Fault State
  | [], s => .ok s
  | b :: bs, s =>
    match absorbByte b s with
    | .ok s => absorbBytes bs s
    | .error f => .error f

/-- `respond(code, data)`: the one response of a command (R79). -/
def respond (code : RspCode) (data : Byte) (s : State) : State :=
  { s with responses := s.responses ++ [{ code := code, data := data }] }

/-- `rsp_code` as the two bits on the port (R79). -/
def RspCode.bits : RspCode → BitVec 2
  | .ok => 0
  | .invalidParameter => 1

/-- TAKING THE EXCEPTION: `raise InvalidParameter` ends the command with response (1, 0x00) and writes no field of the context,
`phase` included (R214, R110). Nothing is saved (R212), so there is no return from it: the core is ready for the next command
in the phase it was in (R215). -/
def raiseInvalidParameter (s : State) : State := respond .invalidParameter 0x00 s

/-- Command admission: the command runs when `phase` is the one it is legal in, and is refused in any other (R27, R217). -/
def inPhase (p : Phase) (s : State) (run : Host.Outcome State Fault Refusal) : Host.Outcome State Fault Refusal :=
  if s.phase = p then run else .refused .wrongPhase

end Sys2Proof.Machine
end

