-- ==== Sys2Proof/Machine/Absorb.lean ====
section
/-! DEFINITION. ABSORB, one byte of the message (spec/41_absorb.md). -/

namespace Sys2Proof.Machine

/-- `ABSORB byte` (R120): legal in ACTIVE only; it runs `ABSORB_BYTE` and responds OK; `phase` stays ACTIVE. -/
def execAbsorb (byte : Byte) (s : State) : Host.Outcome State Fault Refusal :=
  inPhase .active s <|
    match absorbByte byte s with
    | .ok s => .next (respond .ok 0x00 s)
    | .error f => .fault f

end Sys2Proof.Machine
end

