-- ==== Sys2Proof/Machine/Final.lean ====
section
/-! DEFINITION. FINAL, the end of the message (spec/43_final_output.md R170 to R173). -/

namespace Sys2Proof.Machine

/-- FINAL's zero padding of the buffer (R171). -/
def padTail (s : State) : State := { s with buf := clearTail s.buf s.filled }

/-- `FINAL` (R171): legal in ACTIVE only; count the buffered bytes, pad, compress with `last = true`, empty the buffer, and
make the digest readable. -/
def execFinal (s : State) : Host.Outcome State Fault Refusal :=
  inPhase .active s <|
    .next (respond .ok 0x00
      { compress true (padTail (ctrAdd s.filled s)) with filled := 0, phase := .done })

end Sys2Proof.Machine
end

