-- ==== Sys2Proof/Machine/Init.lean ====
section
/-! DEFINITION. INIT, the parameter/state initializer (spec/40_init.md). -/

namespace Sys2Proof.Machine

/-- The parameter block `P[0..63]`: digest length, key length, fanout 1, depth 1, then leaf length, node offset, node depth,
inner length, reserved bytes, salt and personalization, all zero (R102). -/
def paramBlock (outlen keylen : Byte) : List Byte :=
  [outlen, keylen, 1, 1]
    ++ List.replicate 4 0 ++ List.replicate 8 0 ++ [0] ++ [0]
    ++ List.replicate 14 0 ++ List.replicate 16 0 ++ List.replicate 16 0

/-- The initial chained state `h[i] = IV[i] xor LE64(P, i)` (R103). -/
def initialState (outlen keylen : Byte) : Vector Word 8 :=
  Vector.ofFn fun i => iv[i] ^^^ le64 (paramBlock outlen keylen) i.val

/-- The writes of INIT before the key: the initial chained state, the cleared buffer and counter, the output length
(R103, R104). -/
def initContext (outlen keylen : Byte) (s : State) : State :=
  { s with
    h := initialState outlen keylen
    buf := Memory.zeroed
    filled := 0
    t0 := 0
    t1 := 0
    outlen := outlen }

/-- The key block: the key bytes go through `ABSORB_BYTE`, then `filled` is forced to 128; nothing when there is no key
(R105). -/
def loadKey (keylen : Byte) (key : KeyOperand) (s : State) : Except Fault State :=
  if keylen.toNat > 0 then
    match absorbBytes (keyBytes keylen key) s with
    | .ok s => .ok { s with filled := 128 }
    | .error f => .error f
  else .ok s

/-- `INIT outlen, keylen, key` (R108): legal in every phase; the parameter check comes first. -/
def execInit (outlen keylen : Byte) (key : KeyOperand) (s : State) : Host.Outcome State Fault Refusal :=
  if paramsInvalid outlen keylen then .next (raiseInvalidParameter s)
  else
    match loadKey keylen key (initContext outlen keylen s) with
    | .ok s => .next (respond .ok 0x00 { s with phase := .active })
    | .error f => .fault f

end Sys2Proof.Machine
end

