-- ==== Sys2Proof/Machine/Rddig.lean ====
section
/-! DEFINITION. RDDIG, the output serializer (spec/43_final_output.md R174 to R177). -/

namespace Sys2Proof.Machine

/-- `RDDIG idx` (R175): legal in DONE and with `idx < outlen` only; it responds with the digest byte and writes nothing. -/
def execRddig (idx : Byte) (s : State) : Host.Outcome State Fault Refusal :=
  inPhase .done s <|
    if idx.toNat < s.outlen.toNat then
      match digestByte s.h idx.toNat with
      | some b => .next (respond .ok b s)
      | none => .fault .chainedWord
    else .refused .indexBeyondOutlen

end Sys2Proof.Machine
end

