-- ==== Sys2Proof/Machine/Dispatch.lean ====
section
/-! DEFINITION. What each command does: one arm per constructor of Instr. -/

namespace Sys2Proof.Machine

def exec (i : Instr) (s : State) : Host.Outcome State Fault Refusal :=
  match i with
  | .init outlen keylen key => Sys2Proof.Machine.execInit outlen keylen key s
  | .absorb byte => Sys2Proof.Machine.execAbsorb byte s
  | .final => Sys2Proof.Machine.execFinal s
  | .rddig idx => Sys2Proof.Machine.execRddig idx s

end Sys2Proof.Machine
end

