-- ==== Sys2Proof/WellFormed.lean ====
section
/-! DEFINITION. Well-formed commands. The assembler writes an INIT with a key of exactly `keylen` bytes (spec/30_encoding.md
R83), and the port bits past those bytes mean nothing (R74), so the one form a command has here carries zeros there. The other
commands have no ill-formed operand: every 8-bit value is an operand (R75, R77), and FINAL has none (R76). -/

namespace Sys2Proof

/-- How many bytes of `cmd_key` an INIT with this `keylen` may read: `keylen` when it is at most 64, and none when it exceeds
64, where the command fails before reading the key (R74). -/
def keyBytesRead (keylen : Byte) : Nat :=
  if keylen.toNat ≤ 64 then keylen.toNat else 0

/-- Every bit of an INIT's key operand past the bytes it may read is zero (R74, R83). -/
def Instr.wellFormed : Instr → Bool
  | .init _ keylen key => decide (key.toNat < 2 ^ (8 * keyBytesRead keylen))
  | .absorb _ => true
  | .final => true
  | .rddig _ => true

end Sys2Proof
end

