-- ==== Sys2Proof/Decode.lean ====
section
/-! DEFINITION. The decoder (spec/30_encoding.md R81), total on every command the port can carry, which rejects a reserved
word by the case of R80 it falls under; the encoder, written from the encodings of R72 to
R77; the byte order of the key operand (R74); and the host's numbering of an instruction's bits. -/

namespace Sys2Proof

/-- `op`, bits 19..16 of the command word (R72). -/
def opField (w : CmdWord) : BitVec 4 := w.extractLsb' 16 4

/-- `b`, bits 15..8 of the command word (R72). -/
def bField (w : CmdWord) : Byte := w.extractLsb' 8 8

/-- `a`, bits 7..0 of the command word (R72). -/
def aField (w : CmdWord) : Byte := w.extractLsb' 0 8

/-- The key operand with every bit that an INIT of this `keylen` ignores set to zero (R74). DEDUCED (log 6): the decoder drops
what the command does not read. -/
def usedKey (keylen : Byte) (key : KeyOperand) : KeyOperand :=
  (key.setWidth (8 * keyBytesRead keylen)).setWidth 512

/-- Decoding (R81): a total function of the presented command; it does not look at the state. `Invalid` is the error, with
the case of R80. -/
def decode (c : PortCommand) : Except Reserved Instr :=
  let op := opField c.word
  let b := bField c.word
  let a := aField c.word
  if op = 0x1 then .ok (.init a b (usedKey b c.key))
  else if op = 0x2 then if b = 0 then .ok (.absorb a) else .error .operandB
  else if op = 0x3 then if b = 0 ∧ a = 0 then .ok .final else .error .finalOperand
  else if op = 0x4 then if b = 0 then .ok (.rddig a) else .error .operandB
  else .error .opcode

/-- The command word made of its three fields (R72). -/
def packWord (op : BitVec 4) (b a : Byte) : CmdWord := op ++ b ++ a

/-- Encoding (R72 to R77): the word of a command, and the key operand beside it, which is zero for a command that has none. -/
def encode : Instr → PortCommand
  | .init outlen keylen key => { word := packWord 0x1 keylen outlen, key := key }
  | .absorb byte => { word := packWord 0x2 0 byte, key := 0 }
  | .final => { word := packWord 0x3 0 0, key := 0 }
  | .rddig idx => { word := packWord 0x4 0 idx, key := 0 }

/-- The key operand that carries these key bytes, byte 0 in the least significant byte of the port (R74, R83). -/
def keyOperand : List Byte → KeyOperand
  | [] => 0
  | b :: bs => (keyOperand bs <<< 8) ||| b.setWidth 512

/-- How an instruction's bits, numbered as spec/opcode_table.json numbers them, stand on the port: bits 19..0 are `cmd_word`,
and the bits from 20 on are `cmd_key`. DESIGN CHOICE (log 5): the table numbers no bit of the key operand. -/
def tablePresentation (nbits w : Nat) : PortCommand :=
  let bits := w % 2 ^ nbits
  { word := BitVec.ofNat 20 bits, key := BitVec.ofNat 512 (bits / 2 ^ 20) }

/-- What the decoder reads from an instruction whose bits are `w` in the table's numbering. -/
def decodeTableWord (nbits w : Nat) : Option Instr :=
  match decode (tablePresentation nbits w) with
  | .ok i => some i
  | .error _ => none

end Sys2Proof
end

