-- ==== Sys2Proof/Machine/Port.lean ====
section
/-! DEFINITION. What the step does around a command: accepting the next input of the port, and reset
(spec/30_encoding.md R71, spec/70_reset_and_hazards.md R240). -/

namespace Sys2Proof.Machine

/-- Reset applied at any time: the context is as after reset, and the hash in progress is lost (R240). What the outside has
still to present, and the responses it already has, are not the core's to clear (DESIGN CHOICE, log 9). The registers that
R240 leaves unspecified take their values of State.reset (DESIGN CHOICE, log 1). -/
def applyReset (s : State) : State :=
  { State.reset with pending := s.pending, responses := s.responses }

/-- The state once the next input has been taken from the port. -/
def takeInput (rest : List PortInput) (s : State) : State := { s with pending := rest }

/-- Present one command ahead of everything still pending. -/
def present (c : PortCommand) (s : State) : State := { s with pending := .command c :: s.pending }

end Sys2Proof.Machine
end

