-- ==== Sys2Proof/Machine/Step.lean ====
section
/-! DEFINITION. One step of the machine: the port accepts its next input, a command is decoded and has its whole effect as one
atomic transition (spec/00_scope.md R10, spec/20_memory.md R59), and a word that is not a command is refused
(spec/30_encoding.md R80). With nothing presented the core holds its context (spec/60_exceptions.md R224). -/

namespace Sys2Proof.Machine

/-- One step. -/
def step (s : State) : Host.Outcome State Fault Refusal :=
  match s.pending with
  | [] => .next s
  | .reset :: rest => .next (applyReset (takeInput rest s))
  | .command c :: rest =>
    match decode c with
    | .ok i => exec i (takeInput rest s)
    | .error why => .refused (.reservedWord why)

/-- The state in which the very next step runs the instruction whose bits are `w` in the table's numbering: the host presents
it at the port before anything else (log 5). -/
def State.withFetchWord (s : State) (nbits w : Nat) : State := present (tablePresentation nbits w) s

end Sys2Proof.Machine
end

