-- ==== Sys2Proof/Machine/Assembler.lean ====
section
/-! DEFINITION. The assembler's lines and the command each stands for on the port (spec/30_encoding.md R83). A line is held as
what is written in it; its characters (decimal or hexadecimal digits, commas) have no meaning of their own (DESIGN CHOICE, log 10). The
pseudo-commands of R84 are in Sequences. -/

namespace Sys2Proof.Machine

/-- A line of R83: its numbers, and for INIT the key as its bytes, byte 0 first (`-` is the empty key). -/
inductive AsmLine where
  | init (outlen keylen : Nat) (key : List Byte)
  | absorb (byte : Nat)
  | final
  | rddig (idx : Nat)
deriving DecidableEq, Repr

/-- The encoding of a line: its command word, and the key bytes for INIT. None when a number does not fit its 8-bit field, or
when the key has not `keylen` bytes. The port carries 64 key bytes: past them a longer key is not read (R74). -/
def assemble : AsmLine → Option PortCommand
  | .init outlen keylen key =>
    if outlen < 256 ∧ keylen < 256 ∧ key.length = keylen then
      some { word := packWord 0x1 (BitVec.ofNat 8 keylen) (BitVec.ofNat 8 outlen), key := keyOperand key }
    else none
  | .absorb byte => if byte < 256 then some { word := packWord 0x2 0 (BitVec.ofNat 8 byte), key := 0 } else none
  | .final => some { word := packWord 0x3 0 0, key := 0 }
  | .rddig idx => if idx < 256 then some { word := packWord 0x4 0 (BitVec.ofNat 8 idx), key := 0 } else none

end Sys2Proof.Machine
end

