-- ==== Sys2Proof/Machine/Reference.lean ====
section
/-! DEFINITION. The function the core computes, stated without the buffer (spec/44_sequences.md R198). No meaning uses it: it
is what the commands are compared with. -/

namespace Sys2Proof.Machine

/-- A byte sequence extended with zero bytes to 128 bytes. -/
def zeroPadded (bytes : List Byte) : List Byte := bytes ++ List.replicate (128 - bytes.length) 0

/-- `D`: the message, behind the key block when there is a key (R198). -/
def hashedBytes (key d : List Byte) : List Byte := (if key = [] then [] else zeroPadded key) ++ d

/-- `N`: 1 when `L = 0`, else `ceil(L / 128)` (R198). -/
def blockCount (L : Nat) : Nat := if L = 0 then 1 else (L + 127) / 128

/-- Block `B_(k+1)` as message words: bytes 128k..128k+127 of `D`, extended with zero bytes (R198). -/
def blockWords (D : List Byte) (k : Nat) : Words16 :=
  Vector.ofFn fun j => le64 (zeroPadded ((D.drop (128 * k)).take 128)) j.val

/-- `COMPRESS(last)` on a chained state with the 128-bit counter value `n` (R198). -/
def compressAt (h : Vector Word 8) (n : Nat) (m : Words16) (last : Bool) : Vector Word 8 :=
  compressWords h (BitVec.ofNat 64 n) (BitVec.ofNat 64 (n / 2 ^ 64)) m last

/-- The chained state after the first `n` blocks of `D`, none of them the last (R198). -/
def chainBlocks (h : Vector Word 8) (D : List Byte) : Nat → Vector Word 8
  | 0 => h
  | n + 1 => compressAt (chainBlocks h D n) (128 * (n + 1)) (blockWords D n) false

/-- The chained state a hash ends in: the first N-1 blocks with `last = false`, then block N with the counter value `L` and
`last = true` (R198). -/
def hashState (outlen : Byte) (key d : List Byte) : Vector Word 8 :=
  let D := hashedBytes key d
  let N := blockCount D.length
  let h0 := initialState outlen (BitVec.ofNat 8 key.length)
  compressAt (chainBlocks h0 D (N - 1)) D.length (blockWords D (N - 1)) true

/-- The first `n` bytes of a chained state, each word least significant byte first (R174). -/
def serialize (h : Vector Word 8) (n : Nat) : List Byte :=
  ((h.toList.flatMap fun w => (List.range 8).map (byteOf w))).take n

/-- The digest (R174, R198). -/
def hashDigest (outlen : Byte) (key d : List Byte) : List Byte :=
  serialize (hashState outlen key d) outlen.toNat

/-- A byte sequence read as it is written in hexadecimal, byte 0 first: the notation of the spec's digests. -/
def serialNumber (bytes : List Byte) : Nat := bytes.foldl (fun n b => n * 256 + b.toNat) 0

end Sys2Proof.Machine
end

