-- ==== Sys2Proof/Machine/Sequences.lean ====
section
/-! DEFINITION. Sequences of commands and the pseudo-commands that stand for them (spec/44_sequences.md R190 to R192,
spec/30_encoding.md R84). They have no encoding of their own: each is its expansion. -/

namespace Sys2Proof.Machine

/-- Commands accepted one after the other, each with its whole effect before the next (spec/20_memory.md R59); the first that
stops stops the sequence. -/
def execSeq : List Instr → State → Host.Outcome State Fault Refusal
  | [], s => .next s
  | i :: rest, s =>
    match exec i s with
    | .next s => execSeq rest s
    | .fault f => .fault f
    | .refused r => .refused r

/-- `UPDATE d`: one ABSORB per byte, in order (R190). -/
def update (d : List Byte) : List Instr := d.map .absorb

/-- `DIGEST`: RDDIG 0, RDDIG 1, ..., RDDIG outlen-1 (R191). -/
def digestReads (outlen : Byte) : List Instr :=
  (List.range outlen.toNat).map fun i => .rddig (BitVec.ofNat 8 i)

/-- The INIT of `HASH outlen, key, d`: `INIT outlen, len(key), key` (R192). The length field is 8 bits wide, so a host can send
only keys of at most 255 bytes (R74); for a longer one this is no command of the spec (DESIGN CHOICE, log 11). -/
def hashInit (outlen : Byte) (key : List Byte) : Instr :=
  .init outlen (BitVec.ofNat 8 key.length) (keyOperand key)

/-- The code of the latest response. -/
def lastCode (s : State) : Option RspCode := s.responses.getLast?.map Response.code

/-- `HASH outlen, key, d`: INIT; stop if it responds INVALID_PARAMETER; otherwise UPDATE d, FINAL, DIGEST (R192). -/
def execHash (outlen : Byte) (key d : List Byte) (s : State) : Host.Outcome State Fault Refusal :=
  match exec (hashInit outlen key) s with
  | .next s =>
    if lastCode s = some .invalidParameter then .next s
    else execSeq (update d ++ [.final] ++ digestReads outlen) s
  | .fault f => .fault f
  | .refused r => .refused r

end Sys2Proof.Machine
end

