-- ==== Sys2Proof/Safety.lean ====
section
/-! DEFINITION. The terms claims are stated in: the state invariant, the counter as one number, when a command and a sequence
of commands are legal, and what it is for two states to differ only in what nothing may depend on. -/

namespace Sys2Proof.Machine

/-- The byte counter as one 128-bit number, `t[1] * 2^64 + t[0]` (spec/10_state.md R22). -/
def State.counter (s : State) : Nat := s.t1.toNat * 2 ^ 64 + s.t0.toNat

/-- The outcome is a next state. -/
def Completes (o : Host.Outcome State Fault Refusal) : Prop := ∃ s, o = .next s

/-- The next state of an outcome, for tests. -/
def nextState (o : Host.Outcome State Fault Refusal) : Option State :=
  match o with
  | .next s => some s
  | .fault _ => none
  | .refused _ => none

/-- The opcode of a command (spec/30_encoding.md R73). -/
def commandOpcode : Instr → BitVec 4
  | .init _ _ _ => 0x1
  | .absorb _ => 0x2
  | .final => 0x3
  | .rddig _ => 0x4

/-- The opcode of the command that the 20-bit word `n` is, and none when the word is reserved (spec/30_encoding.md R80). -/
def wordOpcode (n : Nat) : Option (BitVec 4) :=
  match decode { word := BitVec.ofNat 20 n, key := 0 } with
  | .ok i => some (commandOpcode i)
  | .error _ => none

/-- What holds in every state a run reaches. -/
structure Inv (s : State) : Prop where
  /-- The buffer keeps its canonical form, so it lists no byte outside 0..127 (spec/20_memory.md R50). -/
  bufCanonical : s.buf.wf = true
  /-- `filled` is a legal value while there is a context (spec/10_state.md R24, R37 (a)). -/
  filledRange : s.phase ≠ .idle → s.filled.toNat ≤ 128
  /-- `outlen` is a legal value while there is a context (spec/10_state.md R25). -/
  outlenRange : s.phase ≠ .idle → 1 ≤ s.outlen.toNat ∧ s.outlen.toNat ≤ 64
  /-- While absorbing, the counter is a whole number of blocks (spec/10_state.md R37 (b)). -/
  wholeBlocks : s.phase = .active → s.t0.toNat % 128 = 0
  /-- While absorbing, `filled` is zero only right after an INIT without a key (spec/10_state.md R37 (d)). -/
  emptyIsFresh : s.phase = .active → s.filled = 0 →
    s.t0 = 0 ∧ s.t1 = 0 ∧ s.buf = Memory.zeroed ∧ s.h = initialState s.outlen 0
  /-- A finished context has an empty buffer count (spec/43_final_output.md R171). -/
  doneIsEmpty : s.phase = .done → s.filled = 0

/-- When a command runs rather than being refused: its phase, and for RDDIG its index (spec/10_state.md R27,
spec/60_exceptions.md R217). -/
def Admitted (i : Instr) (s : State) : Prop :=
  match i with
  | .init _ _ _ => True
  | .absorb _ => s.phase = .active
  | .final => s.phase = .active
  | .rddig idx => s.phase = .done ∧ idx.toNat < s.outlen.toNat

/-- The phase after an admitted command (the table of spec/10_state.md R27). -/
def phaseAfter (i : Instr) (p : Phase) : Phase :=
  match i with
  | .init outlen keylen _ => if paramsInvalid outlen keylen then p else .active
  | .absorb _ => .active
  | .final => .done
  | .rddig _ => .done

/-- The legal command sequences from a phase and an output length (spec/44_sequences.md R194). -/
def legalSeq : Phase → Byte → List Instr → Bool
  | _, _, [] => true
  | p, o, .init outlen keylen _ :: rest =>
    if paramsInvalid outlen keylen then legalSeq p o rest else legalSeq .active outlen rest
  | p, o, .absorb _ :: rest => decide (p = .active) && legalSeq .active o rest
  | p, o, .final :: rest => decide (p = .active) && legalSeq .done o rest
  | p, o, .rddig idx :: rest =>
    decide (p = .done) && decide (idx.toNat < o.toNat) && legalSeq .done o rest

/-- The two states differ at most in the bytes of the buffer that are not logically valid, those at or past `filled`
(spec/20_memory.md R62). -/
structure SameButStale (s s' : State) : Prop where
  h : s.h = s'.h
  t0 : s.t0 = s'.t0
  t1 : s.t1 = s'.t1
  filled : s.filled = s'.filled
  outlen : s.outlen = s'.outlen
  phase : s.phase = s'.phase
  pending : s.pending = s'.pending
  responses : s.responses = s'.responses
  valid : ∀ j, j < s.filled.toNat → s.buf.read j = s'.buf.read j

/-- The two states are equal, or both are IDLE and differ at most in the registers that reset leaves unspecified
(spec/70_reset_and_hazards.md R241). -/
def SameButUnspecified (s s' : State) : Prop :=
  s = s' ∨ (s.phase = .idle ∧ s'.phase = .idle ∧ s.pending = s'.pending ∧ s.responses = s'.responses)

/-- Two outcomes stop for the same reason, or go on in states that `R` relates. -/
def OutcomesRelated (R : State → State → Prop) (o o' : Host.Outcome State Fault Refusal) : Prop :=
  match o, o' with
  | .next s, .next s' => R s s'
  | .fault f, .fault f' => f = f'
  | .refused r, .refused r' => r = r'
  | _, _ => False

end Sys2Proof.Machine
end

