-- ==== Sys2Proof/Certificates/Slice0/Obligations.lean ====
section
/-! DEFINITION. The statements for the provers, from the numbered rules of the spec, file by file. -/

open Sys2Proof
open Sys2Proof.Machine

/-! ### Reset and the step -/

/-- Right after reset `phase` is IDLE, and reset applied at any time leaves `phase` IDLE (R36, R240). The other registers are
unspecified, and nothing is said of them. That the inputs still pending and the responses already given stay (the last two
clauses) is the model's choice (log 9), and so are the two lists themselves (log 3, log 4). -/
def Obligations.ResetLeavesPhaseIdle : Prop :=
  State.reset.phase = .idle ∧
  ∀ (s : State) (rest : List PortInput), s.pending = .reset :: rest →
    ∃ t, step s = .next t ∧ t.phase = .idle ∧ t.pending = rest ∧ t.responses = s.responses

/-- A step runs the decoded command: the head of `pending` is taken from the port, and the rest is `exec` of it. The same for the
instruction that `withFetchWord` presents (log 5). The list `pending` is the model's own (log 3). -/
def Obligations.StepRunsTheDecodedCommand : Prop :=
  (∀ (s : State) (c : PortCommand) (rest : List PortInput) (i : Instr),
    s.pending = .command c :: rest → decode c = .ok i → step s = exec i { s with pending := rest }) ∧
  ∀ (s : State) (nbits w : Nat) (i : Instr),
    decodeTableWord nbits w = some i → step (s.withFetchWord nbits w) = exec i s

/-- With nothing presented the core holds its context unchanged (R224). That an empty list `pending` stands for nothing presented
is the model's choice (log 3). -/
def Obligations.ContextHeldBetweenCommands : Prop :=
  ∀ s : State, s.pending = [] → step s = .next s

/-- Commands presented one after the other take effect one at a time, each on the state its predecessor left (R59): running the
machine for as many steps as commands are pending is the sequence of their effects. The list `pending` is the model's own
(log 3). -/
def Obligations.RunOfPresentedCommandsIsTheirSequence : Prop :=
  ∀ (is : List Instr) (s : State) (rest : List PortInput), (∀ i ∈ is, i.wellFormed = true) →
    s.pending = is.map (fun i => PortInput.command (encode i)) ++ rest →
    (Host.Core.run Sys2Proof.core is.length s : Host.Outcome State Fault Refusal) = execSeq is { s with pending := rest }

/-! ### Encoding -/

/-- Decoding the encoding of any well-formed command gives it back, every operand at every value. -/
def Obligations.DecodeInvertsEncode : Prop :=
  ∀ i : Instr, i.wellFormed = true → decode (encode i) = .ok i

/-- The other direction: the encoding of what the decoder reads is the presented word (R81), and its key operand is the presented
one on the bits that an INIT of its length reads (R74). That it is zero past them, and so that what is read is well-formed, is
the model's choice (log 6, DEDUCED): the spec says only that those bits are ignored. -/
def Obligations.EncodeInvertsDecode : Prop :=
  ∀ (c : PortCommand) (i : Instr), decode c = .ok i →
    i.wellFormed = true ∧ (encode i).word = c.word ∧
    ∀ outlen keylen key, i = .init outlen keylen key →
      ∀ n, key.getLsbD n = (decide (n < 8 * keyBytesRead keylen) && c.key.getLsbD n)

/-- R73: the opcode map, as match and mask over the 20-bit word, with the operand each command takes from the word. -/
def Obligations.OpcodeMapByMaskAndMatch : Prop :=
  ∀ c : PortCommand,
    ((∃ key, decode c = .ok (.init (c.word.extractLsb' 0 8) (c.word.extractLsb' 8 8) key)) ↔
      c.word &&& 0xF0000 = 0x10000) ∧
    (decode c = .ok (.absorb (c.word.extractLsb' 0 8)) ↔ c.word &&& 0xFFF00 = 0x20000) ∧
    (decode c = .ok .final ↔ c.word &&& 0xFFFFF = 0x30000) ∧
    (decode c = .ok (.rddig (c.word.extractLsb' 0 8)) ↔ c.word &&& 0xFFF00 = 0x40000)

/-- R80: the reserved words, exactly; a reserved word is refused; and how many of the 2^20 words are which command. -/
def Obligations.ReservedWordsExactly : Prop :=
  (∀ c : PortCommand, (∃ why, decode c = .error why) ↔
    (c.word.extractLsb' 16 4 = 0x0 ∨ 0x5 ≤ (c.word.extractLsb' 16 4).toNat) ∨
    ((c.word.extractLsb' 16 4 = 0x2 ∨ c.word.extractLsb' 16 4 = 0x4) ∧ c.word.extractLsb' 8 8 ≠ 0) ∨
    (c.word.extractLsb' 16 4 = 0x3 ∧ c.word.extractLsb' 0 16 ≠ 0)) ∧
  (∀ (s : State) (c : PortCommand) (rest : List PortInput) (why : Reserved),
    s.pending = .command c :: rest → decode c = .error why → step s = .refused (.reservedWord why)) ∧
  Nat.count (fun n => wordOpcode n = some 0x1) (2 ^ 20) = 65536 ∧
  Nat.count (fun n => wordOpcode n = some 0x2) (2 ^ 20) = 256 ∧
  Nat.count (fun n => wordOpcode n = some 0x3) (2 ^ 20) = 1 ∧
  Nat.count (fun n => wordOpcode n = some 0x4) (2 ^ 20) = 256 ∧
  Nat.count (fun n => wordOpcode n = none) (2 ^ 20) = 982527

/-- R74: INIT's operands are the two fields of the word, unscaled; key byte j is bits 8j+7..8j of `cmd_key`; and the bits of
`cmd_key` past the key, or all of them when `keylen > 64` or for another command, change nothing. -/
def Obligations.KeyBitsPastTheLengthIgnored : Prop :=
  (∀ (w : CmdWord) (key : KeyOperand), w.extractLsb' 16 4 = 0x1 →
    ∃ key', decode { word := w, key := key } = .ok (.init (w.extractLsb' 0 8) (w.extractLsb' 8 8) key') ∧
      ∀ j, j < keyBytesRead (w.extractLsb' 8 8) → keyByte key' j = key.extractLsb' (8 * j) 8) ∧
  (∀ (w : CmdWord) (key key' : KeyOperand),
    (w.extractLsb' 16 4 = 0x1 → ∀ n, n < 8 * keyBytesRead (w.extractLsb' 8 8) → key.getLsbD n = key'.getLsbD n) →
    decode { word := w, key := key } = decode { word := w, key := key' }) ∧
  ∀ (outlen keylen : Byte) (key key' : KeyOperand) (s : State),
    (keylen.toNat ≤ 64 → ∀ j, j < keylen.toNat → keyByte key j = keyByte key' j) →
    exec (.init outlen keylen key) s = exec (.init outlen keylen key') s

/-- R83, R74: a key written as a byte sequence, byte 0 first, of at most 64 bytes stands on the port so that INIT reads those
bytes, and the INIT that `HASH` issues for it is well-formed. -/
def Obligations.KeyBytesStandOnThePort : Prop :=
  ∀ (outlen : Byte) (key : List Byte), key.length ≤ 64 →
    (hashInit outlen key).wellFormed = true ∧
    keyBytes (BitVec.ofNat 8 key.length) (keyOperand key) = key

/-- R83: every assembler line whose numbers fit their fields, with a key of `keylen` bytes, has the encoding of the spec, and the
decoder reads from it the command written, with the key bytes in their order. -/
def Obligations.AssembledLinesDecodeAsWritten : Prop :=
  (∀ (outlen keylen : Nat) (key : List Byte), outlen < 256 → keylen < 256 → key.length = keylen →
    ∃ c k, assemble (.init outlen keylen key) = some c ∧ c.word.toNat = 0x10000 + keylen * 2 ^ 8 + outlen ∧
      decode c = .ok (.init (BitVec.ofNat 8 outlen) (BitVec.ofNat 8 keylen) k) ∧
      (keylen ≤ 64 → keyBytes (BitVec.ofNat 8 keylen) k = key)) ∧
  (∀ byte, byte < 256 → ∃ c, assemble (.absorb byte) = some c ∧ c.word.toNat = 0x20000 + byte ∧
    decode c = .ok (.absorb (BitVec.ofNat 8 byte))) ∧
  (∃ c, assemble .final = some c ∧ c.word.toNat = 0x30000 ∧ decode c = .ok .final) ∧
  ∀ idx, idx < 256 → ∃ c, assemble (.rddig idx) = some c ∧ c.word.toNat = 0x40000 + idx ∧
    decode c = .ok (.rddig (BitVec.ofNat 8 idx))

/-- Words written out bit by bit from R72 and R73 decode to the commands they stand for. -/
def Obligations.WrittenWordsDecode : Prop :=
  decode { word := 0b00010000000101000000#20, key := 0x6B } = .ok (.init 64 1 0x6B) ∧
  decode { word := 0b00100000000001100001#20, key := 0 } = .ok (.absorb 0x61) ∧
  decode { word := 0b00110000000000000000#20, key := 0 } = .ok .final ∧
  decode { word := 0b01000000000000000101#20, key := 0 } = .ok (.rddig 5) ∧
  decode { word := 0b00100000000101100001#20, key := 0 } = .error .operandB ∧
  decode { word := 0b00110000000000000001#20, key := 0 } = .error .finalOperand ∧
  decode { word := 0b00000000000000000000#20, key := 0 } = .error .opcode

/-! ### Constants and words -/

/-- R31: `IV[i] = floor(sqrt(p) * 2^64) mod 2^64` for the first eight primes p. -/
def Obligations.IvFromSquareRootsOfPrimes : Prop :=
  ∀ i : Fin 8, (iv[i]).toNat = Nat.sqrt (#v[2, 3, 5, 7, 11, 13, 17, 19][i] * 2 ^ 128) % 2 ^ 64

/-- R32, R148: every row of SIGMA is a permutation of 0..15, rows 10 and 11 are rows 0 and 1, and in every round the row is the
one of index `r mod 10`. -/
def Obligations.SigmaRowsArePermutations : Prop :=
  (∀ r : Fin 12, (sigma[r]).toList.Perm (List.finRange 16)) ∧
  sigma[10] = sigma[0] ∧ sigma[11] = sigma[1] ∧
  ∀ (v m : Words16) (r : Nat), r < 12 → sigmaRow r = sigmaRow (r % 10) ∧ mixRound v m r = mixRound v m (r % 10)

/-- R141: bit `i` of `rotr64(x, n)` is bit `(i + n) mod 64` of `x`, for every amount in 1..63; for 32 the halves are swapped, and
63 is a left-rotation by one. -/
def Obligations.RotationMovesBits : Prop :=
  (∀ (x : Word) (n i : Nat), 1 ≤ n → n ≤ 63 → i < 64 → (rotr64 x n).getLsbD i = x.getLsbD ((i + n) % 64)) ∧
  (∀ x : Word, rotr64 x 32 = x.extractLsb' 0 32 ++ x.extractLsb' 32 32) ∧
  ∀ x : Word, rotr64 x 63 = (x <<< 1) ||| (x >>> 63)

/-! ### The buffer -/

/-- `MemWrite` in range writes the low bytes of `e`, little-endian, and leaves every other byte alone, and `MemRead` gives back
the number (R56). The second clause, that an access out of range ends in the fault `bufferIndex`, is the model's choice
(log 7): R56 only requires that none is made. The canonical form is the model's own. -/
def Obligations.BufferReadAfterWrite : Prop :=
  (∀ (m : Memory) (addr n e : Nat), m.wf = true → addr + n ≤ 128 →
    ∃ m', memWrite m addr n e = .ok m' ∧ m'.wf = true ∧
      (∀ j, j < n → m'.read (addr + j) = BitVec.ofNat 8 (e >>> (8 * j))) ∧
      (∀ a, a < addr ∨ addr + n ≤ a → m'.read a = m.read a) ∧
      memRead m' addr n = .ok (e % 2 ^ (8 * n))) ∧
  ∀ (m : Memory) (addr n e : Nat), 128 < addr + n →
    memRead m addr n = .error .bufferIndex ∧ memWrite m addr n e = .error .bufferIndex

/-- R145, R53: message word `j` is the eight bytes at 8j, byte 8j least significant, and the read is in range. -/
def Obligations.MessageWordsAreLittleEndian : Prop :=
  ∀ (m : Memory) (j : Fin 16),
    (messageWords m)[j] = messageWord m j ∧
    memRead m (8 * j.val) 8 = .ok (messageWord m j).toNat ∧
    ∀ k, k < 8 → byteOf (messageWord m j) k = m.read (8 * j.val + k)

/-! ### The counter -/

/-- R122: the two statements of `CTR_ADD`, the wrap test is exact for every 64-bit count, and nothing but the counter is
written. -/
def Obligations.CounterAddCarriesExactly : Prop :=
  (∀ (n : Byte) (s : State),
    ctrAdd n s = { s with
      t0 := s.t0 + n.setWidth 64
      t1 := if s.t0 + n.setWidth 64 < n.setWidth 64 then s.t1 + 1 else s.t1 }) ∧
  ∀ low n : Word, counterCarry (low + n) n = true ↔ 2 ^ 64 ≤ low.toNat + n.toNat

/-- R123, R124: `CTR_ADD(n)` replaces the 128-bit counter by it plus `n`, modulo 2^128. -/
def Obligations.CounterAddsModulo128Bits : Prop :=
  ∀ (n : Byte) (s : State), (ctrAdd n s).counter = (s.counter + n.toNat) % 2 ^ 128

/-! ### The mixer -/

/-- R143: what the eight statements of `G` leave in its four words, and that it touches no other word. -/
def Obligations.MixingPrimitiveResult : Prop :=
  ∀ (v : Words16) (a b c d : Fin 16) (x y : Word), a ≠ b → a ≠ c → a ≠ d → b ≠ c → b ≠ d → c ≠ d →
    let a1 := v[a] + v[b] + x
    let d1 := rotr64 (v[d] ^^^ a1) 32
    let c1 := v[c] + d1
    let b1 := rotr64 (v[b] ^^^ c1) 24
    let a2 := a1 + b1 + y
    let d2 := rotr64 (d1 ^^^ a2) 16
    let c2 := c1 + d2
    let b2 := rotr64 (b1 ^^^ c2) 63
    (g v a b c d x y)[a] = a2 ∧ (g v a b c d x y)[b] = b2 ∧ (g v a b c d x y)[c] = c2 ∧ (g v a b c d x y)[d] = d2 ∧
    ∀ j : Fin 16, j ≠ a → j ≠ b → j ≠ c → j ≠ d → (g v a b c d x y)[j] = v[j]

/-- R147: the four column calls of a round may run in any order with the same result, and so may the four diagonal calls: any
two of them commute. -/
def Obligations.CallsOfOneHalfRoundCommute : Prop :=
  ∀ half ∈ ([[(0, 4, 8, 12), (1, 5, 9, 13), (2, 6, 10, 14), (3, 7, 11, 15)],
      [(0, 5, 10, 15), (1, 6, 11, 12), (2, 7, 8, 13), (3, 4, 9, 14)]] : List (List (Fin 16 × Fin 16 × Fin 16 × Fin 16))),
    ∀ q ∈ half, ∀ q' ∈ half, q ≠ q' → ∀ (v : Words16) (x y x' y' : Word),
      g (g v q.1 q.2.1 q.2.2.1 q.2.2.2 x y) q'.1 q'.2.1 q'.2.2.1 q'.2.2.2 x' y' =
      g (g v q'.1 q'.2.1 q'.2.2.1 q'.2.2.2 x' y') q.1 q.2.1 q.2.2.1 q.2.2.2 x y

/-- R144: every word of the working vector at the start of a compression. -/
def Obligations.WorkingVectorAtStart : Prop :=
  ∀ (h : Vector Word 8) (t0 t1 : Word) (last : Bool),
    (∀ i : Fin 8, (workingVector h t0 t1 last)[i.val] = h[i]) ∧
    (∀ i : Fin 4, (workingVector h t0 t1 last)[i.val + 8] = iv[i.val]) ∧
    (workingVector h t0 t1 last)[12] = iv[4] ^^^ t0 ∧
    (workingVector h t0 t1 last)[13] = iv[5] ^^^ t1 ∧
    (workingVector h t0 t1 last)[14] = (if last then (0xE07C265404BE4294 : Word) else iv[6]) ∧
    (workingVector h t0 t1 last)[15] = iv[7]

/-- R149, R142, R150: `COMPRESS(last)` writes `h`, with the old `h[i]` and the words after twelve rounds, and nothing else; and
what it writes depends on `h`, `t`, the 128 bytes of `buf` and `last` alone. -/
def Obligations.CompressionWritesOnlyChainedState : Prop :=
  (∀ (last : Bool) (s : State), ∃ v : Words16,
    v = (List.range 12).foldl (mixRound · (messageWords s.buf) ·) (workingVector s.h s.t0 s.t1 last) ∧
    compress last s = { s with h := Vector.ofFn fun i => s.h[i] ^^^ v[i.val] ^^^ v[i.val + 8] }) ∧
  ∀ (last : Bool) (s s' : State), s.h = s'.h → s.t0 = s'.t0 → s.t1 = s'.t1 →
    (∀ a, a < 128 → s.buf.read a = s'.buf.read a) → (compress last s).h = (compress last s').h

/-! ### INIT -/

/-- R102: the parameter block, byte by byte. -/
def Obligations.ParameterBlockLayout : Prop :=
  ∀ outlen keylen : Byte, (paramBlock outlen keylen).length = 64 ∧
    (paramBlock outlen keylen)[0]? = some outlen ∧ (paramBlock outlen keylen)[1]? = some keylen ∧
    (paramBlock outlen keylen)[2]? = some 1 ∧ (paramBlock outlen keylen)[3]? = some 1 ∧
    ∀ j, 4 ≤ j → j < 64 → (paramBlock outlen keylen)[j]? = some 0

/-- R103: the initial chained state is `IV[i] xor LE64(P, i)`, and its closed form. -/
def Obligations.InitialChainedStateClosedForm : Prop :=
  ∀ outlen keylen : Byte,
    (∀ i : Fin 8, (initialState outlen keylen)[i] = iv[i] ^^^ le64 (paramBlock outlen keylen) i.val) ∧
    (le64 (paramBlock outlen keylen) 0).toNat = 0x01010000 + keylen.toNat * 256 + outlen.toNat ∧
    (∀ i, 1 ≤ i → i ≤ 7 → le64 (paramBlock outlen keylen) i = 0) ∧
    (initialState outlen keylen)[0] =
      (0x6A09E667F3BCC908 : Word) ^^^ ((0x01010000 : Word) ||| (keylen.setWidth 64 <<< 8) ||| outlen.setWidth 64) ∧
    ∀ i : Fin 8, i ≠ 0 → (initialState outlen keylen)[i] = iv[i]

/-- R108, with R101, R106, R107, R110, R214: INIT completes in every state. With legal parameters every field of the context is
written (the chained state, the counter, all 128 bytes of the buffer, `filled`, `outlen`, `phase`) and the response is OK. With
an illegal one nothing is written and the response is INVALID_PARAMETER with data 0. -/
def Obligations.InitWholeCommand : Prop :=
  ∀ (outlen keylen : Byte) (key : KeyOperand) (s : State),
    ((1 ≤ outlen.toNat ∧ outlen.toNat ≤ 64 ∧ keylen.toNat ≤ 64) →
      ∃ t, exec (.init outlen keylen key) s = .next t ∧
        (∀ i : Fin 8, t.h[i] = iv[i] ^^^ le64 (paramBlock outlen keylen) i.val) ∧
        (∀ j, j < 128 → t.buf.read j = if j < keylen.toNat then keyByte key j else 0) ∧ t.buf.wf = true ∧
        t.filled = (if 0 < keylen.toNat then 128 else 0) ∧ t.t0 = 0 ∧ t.t1 = 0 ∧ t.outlen = outlen ∧
        t.phase = .active ∧ t.pending = s.pending ∧ t.responses = s.responses ++ [{ code := .ok, data := 0 }]) ∧
    ((outlen.toNat = 0 ∨ outlen.toNat > 64 ∨ keylen.toNat > 64) →
      exec (.init outlen keylen key) s =
        .next { s with responses := s.responses ++ [{ code := .invalidParameter, data := 0 }] })

/-- R109: the result of a successful INIT does not depend on the previous phase or contents. -/
def Obligations.InitIgnoresPreviousContext : Prop :=
  ∀ (outlen keylen : Byte) (key : KeyOperand) (s s' : State),
    1 ≤ outlen.toNat → outlen.toNat ≤ 64 → keylen.toNat ≤ 64 →
    s.pending = s'.pending → s.responses = s'.responses →
    exec (.init outlen keylen key) s = exec (.init outlen keylen key) s'

/-- R210, R211, R213: the exception is raised by INIT only, exactly when one of the three conditions holds, and no other command
gives that response; of the 65536 INIT words 4160 succeed and 61376 raise it. -/
def Obligations.OnlyInitRaisesInvalidParameter : Prop :=
  (∀ (i : Instr) (s t : State), exec i s = .next t →
    ((t.responses.getLast?.map Response.code = some .invalidParameter) ↔
      ∃ outlen keylen key, i = .init outlen keylen key ∧
        (outlen.toNat = 0 ∨ outlen.toNat > 64 ∨ keylen.toNat > 64))) ∧
  Nat.count (fun n => paramsInvalid (BitVec.ofNat 8 n) (BitVec.ofNat 8 (n / 256)) = false) 65536 = 4160 ∧
  Nat.count (fun n => paramsInvalid (BitVec.ofNat 8 n) (BitVec.ofNat 8 (n / 256)) = true) 65536 = 61376

/-! ### ABSORB -/

/-- R120, R121: ABSORB in ACTIVE completes. With room in the buffer the byte is appended and nothing else changes. With a full
buffer the counter rises by 128 first, the old block is compressed with the new counter and `last = false`, and the byte lands
in `buf[0]` with `filled = 1`. -/
def Obligations.AbsorbAppendsOrCompressesFirst : Prop :=
  ∀ (b : Byte) (s : State), s.phase = .active →
    (s.filled.toNat < 128 →
      exec (.absorb b) s = .next { s with
        buf := s.buf.write s.filled.toNat b
        filled := s.filled + 1
        responses := s.responses ++ [{ code := .ok, data := 0 }] }) ∧
    (s.filled.toNat = 128 →
      exec (.absorb b) s = .next { s with
        t0 := (ctrAdd 128 s).t0
        t1 := (ctrAdd 128 s).t1
        h := compressWords s.h (ctrAdd 128 s).t0 (ctrAdd 128 s).t1 (messageWords s.buf) false
        buf := s.buf.write 0 b
        filled := 1
        responses := s.responses ++ [{ code := .ok, data := 0 }] })

/-- ABSORB with `filled` past 128, a value that never occurs (R24), faults: its write has no address (R56, log 7). -/
def Obligations.AbsorbPastTheBufferFaults : Prop :=
  ∀ (b : Byte) (s : State), s.phase = .active → 128 < s.filled.toNat → exec (.absorb b) s = .fault .bufferIndex

/-- The frame of ABSORB: `outlen`, `phase`, the port's pending inputs, and every byte of the buffer but the one at the index it
appends at; and `h` and the counter when no block was full. -/
def Obligations.AbsorbFrame : Prop :=
  ∀ (b : Byte) (s t : State), exec (.absorb b) s = .next t →
    t.outlen = s.outlen ∧ t.phase = s.phase ∧ t.pending = s.pending ∧
    (s.filled.toNat ≠ 128 → t.h = s.h ∧ t.t0 = s.t0 ∧ t.t1 = s.t1) ∧
    ∀ a, a ≠ (flushFull s).filled.toNat → t.buf.read a = s.buf.read a

/-! ### FINAL and RDDIG -/

/-- R171: FINAL in ACTIVE completes: the counter rises by `filled`, the tail is zeroed, the padded block is compressed with the
new counter and `last = true`, `filled` is 0 and `phase` is DONE. -/
def Obligations.FinalWholeCommand : Prop :=
  ∀ s : State, s.phase = .active → s.buf.wf = true →
    ∃ t, exec .final s = .next t ∧
      t.t0 = s.t0 + s.filled.setWidth 64 ∧
      t.t1 = (if s.t0 + s.filled.setWidth 64 < s.filled.setWidth 64 then s.t1 + 1 else s.t1) ∧
      (∀ j, j < 128 → t.buf.read j = if j < s.filled.toNat then s.buf.read j else 0) ∧ t.buf.wf = true ∧
      t.h = compressWords s.h t.t0 t.t1 (messageWords t.buf) true ∧
      t.filled = 0 ∧ t.phase = .done ∧ t.outlen = s.outlen ∧ t.pending = s.pending ∧
      t.responses = s.responses ++ [{ code := .ok, data := 0 }]

/-- The frame of FINAL: `outlen`, the port's pending inputs, and every byte of the buffer outside `filled..127`. -/
def Obligations.FinalFrame : Prop :=
  ∀ s t : State, exec .final s = .next t →
    t.outlen = s.outlen ∧ t.pending = s.pending ∧
    ∀ a, a < s.filled.toNat ∨ 128 ≤ a → t.buf.read a = s.buf.read a

/-- R175: RDDIG in DONE with `idx < outlen` completes: the response is the digest byte and nothing is written. Otherwise it is
refused. -/
def Obligations.RddigRespondsDigestByte : Prop :=
  (∀ (idx : Byte) (s : State), s.phase = .done → idx.toNat < s.outlen.toNat → s.outlen.toNat ≤ 64 →
    ∃ w, s.h[idx.toNat / 8]? = some w ∧
      exec (.rddig idx) s = .next { s with
        responses := s.responses ++ [{ code := .ok, data := (w >>> (8 * (idx.toNat % 8))).setWidth 8 }] }) ∧
  ∀ (idx : Byte) (s : State), (s.phase ≠ .done ∨ s.outlen.toNat ≤ idx.toNat) →
    ∃ why, exec (.rddig idx) s = .refused why

/-- RDDIG writes no field of the context, whatever the index, and asking for a byte of a word past `h[7]`, which needs an `outlen`
that never occurs (R25), faults (log 7). -/
def Obligations.RddigWritesNothing : Prop :=
  (∀ (idx : Byte) (s t : State), exec (.rddig idx) s = .next t → t = { s with responses := t.responses }) ∧
  ∀ (idx : Byte) (s : State), s.phase = .done → idx.toNat < s.outlen.toNat → 64 ≤ idx.toNat →
    exec (.rddig idx) s = .fault .chainedWord

/-- In DONE the chained state and the output length stand until the next successful INIT (the first half of R38's first sentence;
what RDDIG leaves and what is refused are statements of their own). -/
def Obligations.DigestStandsUntilNextInit : Prop :=
  ∀ (i : Instr) (s t : State), s.phase = .done → exec i s = .next t →
    (t.phase = .done ∧ t.h = s.h ∧ t.outlen = s.outlen) ∨
    ∃ outlen keylen key, i = .init outlen keylen key ∧
      1 ≤ outlen.toNat ∧ outlen.toNat ≤ 64 ∧ keylen.toNat ≤ 64 ∧ t.phase = .active

/-! ### Admission, responses, refusals -/

/-- R217: the refused commands: a reserved word, a wrong phase, an index at or past `outlen`. -/
def Obligations.RefusedCommandsHaveNoStep : Prop :=
  (∀ (s : State) (c : PortCommand) (rest : List PortInput) (why : Reserved),
    s.pending = .command c :: rest → decode c = .error why → step s = .refused (.reservedWord why)) ∧
  (∀ (b : Byte) (s : State), s.phase ≠ .active → exec (.absorb b) s = .refused .wrongPhase) ∧
  (∀ s : State, s.phase ≠ .active → exec .final s = .refused .wrongPhase) ∧
  (∀ (idx : Byte) (s : State), s.phase ≠ .done → exec (.rddig idx) s = .refused .wrongPhase) ∧
  ∀ (idx : Byte) (s : State), s.phase = .done → s.outlen.toNat ≤ idx.toNat →
    exec (.rddig idx) s = .refused .indexBeyondOutlen

/-- R27: in every state that the invariant admits a command completes exactly when it is legal there, and the next phase is the
table's. -/
def Obligations.AdmissionAndPhaseTable : Prop :=
  (∀ (i : Instr) (s : State), Inv s → (Completes (exec i s) ↔ Admitted i s)) ∧
  ∀ (i : Instr) (s t : State), exec i s = .next t → t.phase = phaseAfter i s.phase

/-- R79: a command that completes gives exactly one response, after all earlier ones; its code is 0 or 1 on the port, 1 for a
failing INIT only; its data is the digest byte for RDDIG and zero for every other command. -/
def Obligations.OneResponsePerCommand : Prop :=
  RspCode.ok.bits = 0 ∧ RspCode.invalidParameter.bits = 1 ∧
  ∀ (i : Instr) (s t : State), exec i s = .next t →
    t.pending = s.pending ∧
    ∃ r : Response, t.responses = s.responses ++ [r] ∧
      (r.code = .invalidParameter ↔ ∃ outlen keylen key, i = .init outlen keylen key ∧ paramsInvalid outlen keylen = true) ∧
      (∀ idx, i = .rddig idx → digestByte s.h idx.toNat = some r.data) ∧
      ((∀ idx, i ≠ .rddig idx) → r.data = 0)

/-- R28, R177: before FINAL no response shows anything of the hash: two ACTIVE states with the same earlier responses give the
same responses to any command, whatever their chained state, counter and buffer. -/
def Obligations.NoDigestBeforeFinal : Prop :=
  ∀ (i : Instr) (s s' t t' : State), s.phase = .active → s'.phase = .active → s.responses = s'.responses →
    exec i s = .next t → exec i s' = .next t' → t.responses = t'.responses

/-! ### Whole-machine rules -/

/-- The state after reset meets the invariant. -/
def Obligations.InvariantAtReset : Prop := Inv State.reset

/-- Every step keeps the invariant (R20, R24, R25, R37, R50). -/
def Obligations.InvariantKeptByEveryStep : Prop :=
  ∀ s t : State, Inv s → step s = .next t → Inv t

/-- No step from a state that meets the invariant is a fault: no out-of-range access exists (R56). -/
def Obligations.NoFaultFromInvariantStates : Prop :=
  ∀ (s : State) (f : Fault), Inv s → step s ≠ .fault f

/-- R62: stale bytes of the buffer never matter: two states that differ in them alone go on in step for every command, and end in
the same chained state. -/
def Obligations.StaleBytesNeverMatter : Prop :=
  ∀ (i : Instr) (s s' : State), Inv s → Inv s' → SameButStale s s' →
    OutcomesRelated SameButStale (exec i s) (exec i s')

/-- R241: no behaviour depends on the registers that reset leaves unspecified: two machines that are IDLE and differ in them alone
stop for the same reason or go on, however long they run, in states that are equal or still differ in those alone. -/
def Obligations.UnspecifiedResetValuesNeverRead : Prop :=
  ∀ (n : Nat) (s s' : State), SameButUnspecified s s' →
    OutcomesRelated SameButUnspecified (Host.Core.run Sys2Proof.core n s) (Host.Core.run Sys2Proof.core n s')

/-- R194: from a state that meets the invariant, a sequence of commands completes exactly when it is a legal one. -/
def Obligations.LegalSequencesExactly : Prop :=
  ∀ (is : List Instr) (s : State), Inv s → (Completes (execSeq is s) ↔ legalSeq s.phase s.outlen is = true)

/-! ### Whole hashes -/

/-- R195: however a message is split into chunks, INIT, an UPDATE for each chunk and FINAL complete, in the same state, every field
included, as INIT, one UPDATE of the whole message and FINAL; and its chained state is that of the whole message, by the function
stated without the buffer (R198). -/
def Obligations.ChunkingIsEquivalent : Prop :=
  ∀ (outlen : Byte) (key : List Byte) (chunks : List (List Byte)) (s : State),
    1 ≤ outlen.toNat → outlen.toNat ≤ 64 → key.length ≤ 64 →
    ∃ t, execSeq (hashInit outlen key :: (chunks.flatMap update ++ [.final])) s = .next t ∧
      execSeq (hashInit outlen key :: (update chunks.flatten ++ [.final])) s = .next t ∧
      t.h = hashState outlen key chunks.flatten ∧ t.phase = .done ∧ t.outlen = outlen

/-- R37, R125: after INIT and a message of `n` bytes, `filled` and the counter together are `K + n`, and the counter is 128 for
each block that later bytes have pushed out: a full block waits for the next byte. -/
def Obligations.CounterAndFillWhileAbsorbing : Prop :=
  ∀ (outlen keylen : Byte) (key : KeyOperand) (d : List Byte) (s : State),
    1 ≤ outlen.toNat → outlen.toNat ≤ 64 → keylen.toNat ≤ 64 →
    ∃ t, execSeq (.init outlen keylen key :: update d) s = .next t ∧ t.phase = .active ∧ t.filled.toNat ≤ 128 ∧
      let total := (if 0 < keylen.toNat then 128 else 0) + d.length
      (t.counter + t.filled.toNat) % 2 ^ 128 = total % 2 ^ 128 ∧
      t.counter = 128 * ((total - 1) / 128) % 2 ^ 128 ∧
      (t.filled.toNat = 0 → d.length = 0 ∧ keylen.toNat = 0)

/-- R200: after 2^64 bytes with no key the low counter word is 2^64 - 128 and the buffer is full; the high word rises, exactly once
and with the low word at zero, in the counting done by the next ABSORB or by FINAL. -/
def Obligations.CarryIntoTheHighWord : Prop :=
  ∀ (outlen : Byte) (key : KeyOperand) (d : List Byte) (s : State),
    1 ≤ outlen.toNat → outlen.toNat ≤ 64 → d.length = 2 ^ 64 →
    ∃ t, execSeq (.init outlen 0 key :: update d) s = .next t ∧
      t.t0 = BitVec.ofNat 64 (2 ^ 64 - 128) ∧ t.t1 = 0 ∧ t.filled = 128 ∧
      (∀ b, ∃ u, exec (.absorb b) t = .next u ∧ u.t0 = 0 ∧ u.t1 = 1) ∧
      ∃ u, exec .final t = .next u ∧ u.t0 = 0 ∧ u.t1 = 1

/-- R198, R172: the command sequence INIT, UPDATE d, FINAL leaves exactly the chained state of the function stated without the
buffer, and the counter at the final compression is the number of bytes hashed. -/
def Obligations.HashLeavesTheStatedChainedState : Prop :=
  ∀ (outlen : Byte) (key d : List Byte) (s : State), 1 ≤ outlen.toNat → outlen.toNat ≤ 64 → key.length ≤ 64 →
    ∃ t, execSeq (hashInit outlen key :: (update d ++ [.final])) s = .next t ∧
      t.h = hashState outlen key d ∧ t.phase = .done ∧ t.outlen = outlen ∧
      t.counter = (hashedBytes key d).length % 2 ^ 128

/-- R191, R197: DIGEST in DONE responds with exactly `outlen` bytes, the serialized chained state cut to that length, and writes
nothing. -/
def Obligations.DigestReadsTheSerializedState : Prop :=
  ∀ s : State, s.phase = .done → s.outlen.toNat ≤ 64 →
    (serialize s.h s.outlen.toNat).length = s.outlen.toNat ∧
    execSeq (digestReads s.outlen) s = .next { s with
      responses := s.responses ++ (serialize s.h s.outlen.toNat).map fun b => { code := .ok, data := b } }

/-- R192, R196, R197, R198: HASH with legal parameters completes from every state and its responses are one OK for INIT, one for
each message byte, one for FINAL, and then the digest: a function of the output length, the key and the message alone. -/
def Obligations.HashRespondsWithTheDigest : Prop :=
  ∀ (outlen : Byte) (key d : List Byte) (s : State), 1 ≤ outlen.toNat → outlen.toNat ≤ 64 → key.length ≤ 64 →
    (hashDigest outlen key d).length = outlen.toNat ∧
    ∃ t, execHash outlen key d s = .next t ∧
      t.responses = s.responses ++ List.replicate (d.length + 2) { code := .ok, data := 0 } ++
        (hashDigest outlen key d).map fun b => { code := .ok, data := b }

/-- R193: HASH passes INIT's error on unchanged: with an illegal parameter (and a key length the port can carry) it is one
INVALID_PARAMETER response and no other effect. -/
def Obligations.HashPropagatesInvalidParameter : Prop :=
  ∀ (outlen : Byte) (key d : List Byte) (s : State), key.length ≤ 255 →
    (outlen.toNat = 0 ∨ outlen.toNat > 64 ∨ key.length > 64) →
    execHash outlen key d s =
      .next { s with responses := s.responses ++ [{ code := .invalidParameter, data := 0 }] }

/-- The three digests that the spec's source states (spec/95_test_vectors.md S1, S2, S3): the empty message, "abc", and the fox
sentence, unkeyed, 64 bytes. -/
def Obligations.KnownDigests : Prop :=
  serialNumber (hashDigest 64 [] []) =
    0x786a02f742015903c6c6fd852552d272912f4740e15847618a86e217f71f5419d25e1031afee585313896444934eb04b903a685b1448b755d56f701afe9be2ce ∧
  serialNumber (hashDigest 64 [] [0x61, 0x62, 0x63]) =
    0xba80a53f981c4d0d6a2797b69f12f6e94c212f14685ac4b74b12bb6fdbffa2d17d87c5392aab792dc252d5de4533cc9518d38aa8dbf1925ab92386edd4009923 ∧
  serialNumber (hashDigest 64 [] ("The quick brown fox jumps over the lazy dog".toList.map fun c => BitVec.ofNat 8 c.toNat)) =
    0xa8add4bdddfd93e4877d2746e62817b116364a1fa7bc148d95090bc7333b3673f82401cf7aa2e4cb1ecd90296e3f14cb5413f8ed77be73045b13914cdcd6a918

/-- R199: the keyed digest of "abc" under the key "k" and the unkeyed one differ, in their first four bytes as the spec gives them;
the initial states differ already, and the keyed hash runs two compressions where the unkeyed one runs one. -/
def Obligations.KeyedModeChangesTheDigest : Prop :=
  hashDigest 64 [0x6B] [0x61, 0x62, 0x63] ≠ hashDigest 64 [] [0x61, 0x62, 0x63] ∧
  (hashDigest 64 [0x6B] [0x61, 0x62, 0x63]).take 4 = [0xAA, 0x65, 0xCF, 0x29] ∧
  (hashDigest 64 [] [0x61, 0x62, 0x63]).take 4 = [0xBA, 0x80, 0xA5, 0x3F] ∧
  initialState 64 1 ≠ initialState 64 0 ∧
  blockCount (hashedBytes [0x6B] [0x61, 0x62, 0x63]).length = 2 ∧ blockCount (hashedBytes [] [0x61, 0x62, 0x63]).length = 1
end

