-- ==== Sys2Proof/Laws/Memory.lean ====
section
/-! SUPPORT. Laws of the block buffer: read after write, the canonical form is kept, and canonical buffers with the same bytes
are equal. -/

namespace Sys2Proof.Machine

@[simp] theorem Memory.read_nil (a : Nat) : Memory.read [] a = 0 := rfl

@[simp] theorem Memory.read_zeroed (a : Nat) : Memory.zeroed.read a = 0 := rfl

@[simp] theorem Memory.wf_zeroed : Memory.zeroed.wf = true := rfl

/-- What canonical from `lo` on says of a listed cell. -/
theorem Memory.wfFrom_cons {lo k : Nat} {b : Byte} {m : Memory} :
    Memory.wfFrom lo ((k, b) :: m) = true ↔
      lo ≤ k ∧ k < 128 ∧ b ≠ 0 ∧ Memory.wfFrom (k + 1) m = true := by
  rw [Memory.wfFrom, Bool.and_eq_true, Bool.and_eq_true, Bool.and_eq_true, decide_eq_true_iff, decide_eq_true_iff,
    decide_eq_true_iff, and_assoc, and_assoc]

theorem Memory.wfFrom_mono {lo lo' : Nat} {m : Memory} (hle : lo' ≤ lo) (h : m.wfFrom lo = true) :
    m.wfFrom lo' = true := by
  cases m with
  | nil => rfl
  | cons c m =>
    obtain ⟨h1, h2⟩ := Memory.wfFrom_cons.mp h
    exact Memory.wfFrom_cons.mpr ⟨hle.trans h1, h2⟩

theorem Memory.read_below {lo a : Nat} {m : Memory} (h : m.wfFrom lo = true) (ha : a < lo) : m.read a = 0 := by
  induction m generalizing lo with
  | nil => rfl
  | cons c m ih =>
    obtain ⟨h1, _, _, h4⟩ := Memory.wfFrom_cons.mp h
    rw [Memory.read, if_neg (by omega)]
    exact ih h4 (by omega)

theorem Memory.read_above {lo a : Nat} {m : Memory} (h : m.wfFrom lo = true) (ha : 128 ≤ a) : m.read a = 0 := by
  induction m generalizing lo with
  | nil => rfl
  | cons c m ih =>
    obtain ⟨_, h2, _, h4⟩ := Memory.wfFrom_cons.mp h
    rw [Memory.read, if_neg (by omega)]
    exact ih h4

theorem Memory.wfFrom_write {lo a : Nat} {v : Byte} {m : Memory} (h : m.wfFrom lo = true) (hlo : lo ≤ a)
    (ha : a < 128) : (m.write a v).wfFrom lo = true := by
  induction m generalizing lo with
  | nil =>
    by_cases hv : v = Config.unlistedByte
    · rw [Memory.write, if_pos hv]
      rfl
    · rw [Memory.write, if_neg hv]
      exact Memory.wfFrom_cons.mpr ⟨hlo, ha, hv, rfl⟩
  | cons c m ih =>
    obtain ⟨k, b⟩ := c
    obtain ⟨h1, h2, h3, h4⟩ := Memory.wfFrom_cons.mp h
    simp only [Memory.write]
    split
    · split
      · exact h
      · rename_i hk hv
        exact Memory.wfFrom_cons.mpr ⟨hlo, ha, hv, Memory.wfFrom_cons.mpr ⟨hk, h2, h3, h4⟩⟩
    · split
      · rename_i hk
        split
        · exact Memory.wfFrom_mono (by omega) h4
        · rename_i hv
          exact Memory.wfFrom_cons.mpr ⟨hlo, ha, hv, hk ▸ h4⟩
      · exact Memory.wfFrom_cons.mpr ⟨h1, h2, h3, ih h4 (by omega)⟩

/-- Every write keeps the canonical form. -/
theorem Memory.wf_write {a : Nat} {v : Byte} {m : Memory} (h : m.wf = true) (ha : a < 128) :
    (m.write a v).wf = true :=
  Memory.wfFrom_write h (Nat.zero_le a) ha

theorem Memory.read_write_from {lo a : Nat} {v : Byte} {m : Memory} (h : m.wfFrom lo = true) (x : Nat) :
    (m.write a v).read x = if x = a then v else m.read x := by
  induction m generalizing lo with
  | nil =>
    by_cases hv : v = Config.unlistedByte
    · rw [Memory.write, if_pos hv]
      split
      · exact hv.symm
      · rfl
    · rw [Memory.write, if_neg hv, Memory.read, Memory.read]
      by_cases hx : a = x
      · simp [hx]
      · simp [hx, Ne.symm hx]
  | cons c m ih =>
    obtain ⟨k, b⟩ := c
    obtain ⟨_, _, _, h4⟩ := Memory.wfFrom_cons.mp h
    simp only [Memory.write]
    split
    · rename_i hk
      split
      · rename_i hv
        split
        · rename_i hx
          rw [hx, hv, Memory.read, if_neg (by omega)]
          exact Memory.read_below h4 (by omega)
        · rfl
      · rw [Memory.read]
        by_cases hx : a = x
        · simp [hx]
        · simp [hx, Ne.symm hx]
    · split
      · rename_i hk
        split
        · rename_i hv
          split
          · rename_i hx
            rw [hx, hv]
            exact Memory.read_below h4 (by omega)
          · rename_i hx
            rw [Memory.read, if_neg (by omega)]
        · by_cases hx : x = a
          · simp [Memory.read, hx]
          · rw [Memory.read, if_neg (by omega), if_neg hx, Memory.read, if_neg (by omega)]
      · rename_i hk1 hk2
        rw [Memory.read, ih h4, Memory.read]
        by_cases hx : x = a
        · rw [if_neg (c := k = x) (by omega), if_neg (c := k = x) (by omega)]
        · rw [if_neg hx, if_neg hx]

/-- A read after a write gives the byte written at its index, and the old byte at every other. -/
theorem Memory.read_write {a : Nat} {v : Byte} {m : Memory} (h : m.wf = true) (x : Nat) :
    (m.write a v).read x = if x = a then v else m.read x :=
  Memory.read_write_from h x

/-- A write leaves every other byte alone, whatever the buffer. -/
theorem Memory.read_write_other {m : Memory} {a x : Nat} {v : Byte} (hx : x ≠ a) : (m.write a v).read x = m.read x := by
  induction m with
  | nil =>
    rw [Memory.write]
    split
    · rfl
    · exact if_neg (Ne.symm hx)
  | cons c m ih =>
    obtain ⟨k, b⟩ := c
    simp only [Memory.write]
    split
    · split
      · rfl
      · rw [Memory.read, if_neg (Ne.symm hx)]
    · split
      · rename_i hk
        split
        · rw [Memory.read, if_neg (by omega)]
        · rw [Memory.read, if_neg (Ne.symm hx), Memory.read, if_neg (by omega)]
      · rw [Memory.read, ih, Memory.read]

/-- Clearing leaves every byte outside its range alone, whatever the buffer. -/
theorem Memory.read_clear_other {m : Memory} {a n x : Nat} (hx : x < a ∨ a + n ≤ x) :
    (m.clear a n).read x = m.read x := by
  induction n generalizing m a with
  | zero => rfl
  | succ n ih => rw [Memory.clear, ih (by omega), Memory.read_write_other (by omega)]

theorem Memory.wf_clear {m : Memory} {a n : Nat} (h : m.wf = true) (hn : a + n ≤ 128) :
    (m.clear a n).wf = true := by
  induction n generalizing m a with
  | zero => exact h
  | succ n ih => exact ih (Memory.wf_write h (by omega)) (by omega)

/-- Clearing zeroes exactly the indices of its range. -/
theorem Memory.read_clear {m : Memory} {a n : Nat} (h : m.wf = true) (hn : a + n ≤ 128) (x : Nat) :
    (m.clear a n).read x = if a ≤ x ∧ x < a + n then 0 else m.read x := by
  induction n generalizing m a with
  | zero => simp [Memory.clear]
  | succ n ih =>
    rw [Memory.clear, ih (Memory.wf_write h (by omega)) (by omega), Memory.read_write h]
    by_cases h1 : a + 1 ≤ x ∧ x < a + 1 + n
    · rw [if_pos h1, if_pos (by omega)]
    · rw [if_neg h1]
      by_cases h2 : x = a
      · rw [if_pos h2, if_pos (by omega)]
      · rw [if_neg h2, if_neg (by omega)]

theorem Memory.wf_writeLE {m : Memory} {a n e : Nat} (h : m.wf = true) (hn : a + n ≤ 128) :
    (m.writeLE a n e).wf = true := by
  induction n generalizing m a e with
  | zero => exact h
  | succ n ih => exact ih (Memory.wf_write h (by omega)) (by omega)

theorem Memory.ext_from {lo : Nat} {m m' : Memory} (h : m.wfFrom lo = true) (h' : m'.wfFrom lo = true)
    (hr : ∀ a, m.read a = m'.read a) : m = m' := by
  induction m generalizing lo m' with
  | nil =>
    cases m' with
    | nil => rfl
    | cons c m' =>
      obtain ⟨k, b⟩ := c
      obtain ⟨_, _, h3, _⟩ := Memory.wfFrom_cons.mp h'
      exact absurd (by simpa [Memory.read] using (hr k).symm) h3
  | cons c m ih =>
    obtain ⟨k, b⟩ := c
    obtain ⟨h1, h2, h3, h4⟩ := Memory.wfFrom_cons.mp h
    cases m' with
    | nil => exact absurd (by simpa [Memory.read] using hr k) h3
    | cons c' m' =>
      obtain ⟨k', b'⟩ := c'
      obtain ⟨h1', h2', h3', h4'⟩ := Memory.wfFrom_cons.mp h'
      have hk : k = k' := by
        rcases lt_trichotomy k k' with hlt | heq | hgt
        · have := hr k
          rw [Memory.read, if_pos rfl, Memory.read, if_neg (by omega), Memory.read_below h4' (by omega)] at this
          exact absurd this h3
        · exact heq
        · have := hr k'
          rw [Memory.read, if_neg (by omega), Memory.read, if_pos rfl, Memory.read_below h4 (by omega)] at this
          exact absurd this.symm h3'
      subst hk
      have hb : b = b' := by simpa [Memory.read] using hr k
      subst hb
      congr 1
      refine ih h4 h4' fun a => ?_
      by_cases ha : k = a
      · rw [Memory.read_below h4 (by omega), Memory.read_below h4' (by omega)]
      · simpa [Memory.read, ha] using hr a

/-- Canonical buffers with the same byte at every index are equal. -/
theorem Memory.ext {m m' : Memory} (h : m.wf = true) (h' : m'.wf = true) (hr : ∀ a, a < 128 → m.read a = m'.read a) :
    m = m' :=
  Memory.ext_from h h' fun a => by
    by_cases ha : a < 128
    · exact hr a ha
    · rw [Memory.read_above h (by omega), Memory.read_above h' (by omega)]

theorem clearTail_wf {m : Memory} {n : Byte} (h : m.wf = true) : (clearTail m n).wf = true := by
  by_cases hn : n.toNat ≤ 128
  · exact Memory.wf_clear h (by omega)
  · have : 128 - n.toNat = 0 := by omega
    simpa [clearTail, this, Memory.clear] using h

/-- Padding keeps the bytes below `filled` and zeroes the rest. -/
theorem clearTail_read {m : Memory} {n : Byte} (h : m.wf = true) (x : Nat) :
    (clearTail m n).read x = if n.toNat ≤ x ∧ x < 128 then 0 else m.read x := by
  by_cases hn : n.toNat ≤ 128
  · rw [clearTail, Memory.read_clear h (by omega), Nat.add_sub_cancel' hn]
  · have : 128 - n.toNat = 0 := by omega
    rw [clearTail, this, Memory.clear, if_neg (by omega)]

/-- The message words depend only on the bytes at 0..127. -/
theorem messageWords_congr {m m' : Memory} (h : ∀ a, a < 128 → m.read a = m'.read a) :
    messageWords m = messageWords m' := by
  have hw : messageWord m = messageWord m' := funext fun j => by
    have hb : m.bytes (8 * j.val) 8 = m'.bytes (8 * j.val) 8 := List.map_congr_left fun a ha => h a (by
      have := List.mem_range'_1.mp ha
      omega)
    rw [messageWord, messageWord, hb]
  rw [messageWords, messageWords, hw]

end Sys2Proof.Machine
end

