-- ==== Sys2Proof/Laws/Bytes.lean ====
section
/-! SUPPORT. Laws of byte order: a little-endian number is below its bound and gives back its bytes, and what a little-endian
write leaves in the buffer. -/

namespace Sys2Proof.Machine

theorem leNat_lt (l : List Byte) : leNat l < 2 ^ (8 * l.length) := by
  induction l with
  | nil => simp [leNat]
  | cons b bs ih =>
    have := b.isLt
    rw [leNat, List.length_cons, show 8 * (bs.length + 1) = 8 + 8 * bs.length by ring, pow_add]
    omega

/-- Byte `k` of the number that a byte sequence stands for. -/
theorem leNat_digit (l : List Byte) (k : Nat) (hk : k < l.length) : leNat l / 2 ^ (8 * k) % 256 = (l[k]).toNat := by
  induction l generalizing k with
  | nil => simp at hk
  | cons b bs ih =>
    have := b.isLt
    cases k with
    | zero =>
      simp [leNat]
      omega
    | succ k =>
      rw [leNat, show 8 * (k + 1) = 8 + 8 * k by ring, pow_add, ← Nat.div_div_eq_div_mul,
        show (b.toNat + 2 ^ 8 * leNat bs) / 2 ^ 8 = leNat bs by omega]
      simp at hk
      simpa using ih k hk

@[simp] theorem Memory.bytes_length (m : Memory) (a n : Nat) : (m.bytes a n).length = n := by
  simp [Memory.bytes]

theorem Memory.bytes_getElem (m : Memory) (a n k : Nat) (hk : k < (m.bytes a n).length) :
    (m.bytes a n)[k] = m.read (a + k) := by
  simp [Memory.bytes]

theorem Memory.writeLE_read_other (m : Memory) (a n e x : Nat) (hx : x < a ∨ a + n ≤ x) :
    (m.writeLE a n e).read x = m.read x := by
  induction n generalizing m a e with
  | zero => rfl
  | succ n ih => rw [Memory.writeLE, ih _ _ _ (by omega), Memory.read_write_other (by omega)]

/-- A little-endian write puts byte `j` of the number at index `a + j`. -/
theorem Memory.writeLE_read {m : Memory} (hm : m.wf = true) {a n e j : Nat} (h : a + n ≤ 128) (hj : j < n) :
    (m.writeLE a n e).read (a + j) = BitVec.ofNat 8 (e >>> (8 * j)) := by
  induction n generalizing m a e j with
  | zero => omega
  | succ n ih =>
    rw [Memory.writeLE]
    cases j with
    | zero =>
      rw [Memory.writeLE_read_other _ _ _ _ _ (by omega), Memory.read_write hm]
      simp
    | succ j =>
      rw [show a + (j + 1) = a + 1 + j by ring, ih (Memory.wf_write hm (by omega)) (by omega) (by omega),
        show 8 * (j + 1) = 8 + 8 * j by ring, Nat.shiftRight_add, Nat.shiftRight_eq_div_pow e 8]

end Sys2Proof.Machine
end

