-- ==== Sys2Proof/Laws/PerInstr.lean ====
section
/-! SUPPORT. What is said of every command as syntax, one lemma per constructor. Family PortFields: the three fields of the
command word that the encoder makes are the command's opcode and operands (spec/30_encoding.md R72 to R77). -/

namespace Sys2Proof.Laws

open Sys2Proof.Machine

/-- A packed word as a number. -/
theorem packWord_toNat (op : BitVec 4) (b a : Byte) :
    (packWord op b a).toNat = op.toNat * 65536 + b.toNat * 256 + a.toNat := by
  have hb := b.isLt
  have ha := a.isLt
  unfold packWord
  rw [BitVec.toNat_append, BitVec.toNat_append, ← Nat.shiftLeft_add_eq_or_of_lt ha,
    ← Nat.shiftLeft_add_eq_or_of_lt hb, Nat.shiftLeft_eq, Nat.shiftLeft_eq]
  omega

theorem opField_toNat (w : CmdWord) : (opField w).toNat = w.toNat / 65536 := by
  have hw := w.isLt
  rw [opField, BitVec.extractLsb'_toNat, Nat.shiftRight_eq_div_pow]
  omega

theorem bField_toNat (w : CmdWord) : (bField w).toNat = w.toNat / 256 % 256 := by
  rw [bField, BitVec.extractLsb'_toNat, Nat.shiftRight_eq_div_pow]

theorem aField_toNat (w : CmdWord) : (aField w).toNat = w.toNat % 256 := by
  rw [aField, BitVec.extractLsb'_toNat, Nat.shiftRight_eq_div_pow]
  simp

@[simp] theorem opField_packWord (op : BitVec 4) (b a : Byte) : opField (packWord op b a) = op := by
  have hb := b.isLt
  have ha := a.isLt
  refine BitVec.eq_of_toNat_eq ?_
  rw [opField_toNat, packWord_toNat]
  omega

@[simp] theorem bField_packWord (op : BitVec 4) (b a : Byte) : bField (packWord op b a) = b := by
  have hb := b.isLt
  have ha := a.isLt
  refine BitVec.eq_of_toNat_eq ?_
  rw [bField_toNat, packWord_toNat]
  omega

@[simp] theorem aField_packWord (op : BitVec 4) (b a : Byte) : aField (packWord op b a) = a := by
  have ha := a.isLt
  refine BitVec.eq_of_toNat_eq ?_
  rw [aField_toNat, packWord_toNat]
  omega

/-- The fields of the word that the encoder makes for `i`. -/
def PortFields.Statement (i : Instr) : Prop :=
  opField (encode i).word = commandOpcode i ∧
    bField (encode i).word = (match i with | .init _ keylen _ => keylen | .absorb _ => 0 | .final => 0 | .rddig _ => 0) ∧
    aField (encode i).word = (match i with | .init outlen _ _ => outlen | .absorb b => b | .final => 0 | .rddig idx => idx)

theorem PortFields.init (outlen keylen : Byte) (key : KeyOperand) :
    PortFields.Statement (.init outlen keylen key) := by
  simp [PortFields.Statement, encode, commandOpcode]

theorem PortFields.absorb (byte : Byte) : PortFields.Statement (.absorb byte) := by
  simp [PortFields.Statement, encode, commandOpcode]

theorem PortFields.final : PortFields.Statement .final := by
  simp [PortFields.Statement, encode, commandOpcode]

theorem PortFields.rddig (idx : Byte) : PortFields.Statement (.rddig idx) := by
  simp [PortFields.Statement, encode, commandOpcode]

end Sys2Proof.Laws
end

