-- ==== Sys2Proof/Laws/Encoding.lean ====
section
/-! SUPPORT. Laws of the decoder: a word is its three fields, the key operand a command keeps, and everything a decoded command
can be. -/

namespace Sys2Proof.Laws

open Sys2Proof.Machine

/-- A word is its three fields packed again. -/
theorem packWord_fields (w : CmdWord) : packWord (opField w) (bField w) (aField w) = w := by
  refine BitVec.eq_of_toNat_eq ?_
  rw [packWord_toNat, opField_toNat, bField_toNat, aField_toNat]
  omega

/-- The bits of the key operand that the decoder keeps. -/
theorem usedKey_getLsbD (k : Byte) (key : KeyOperand) (n : Nat) :
    (usedKey k key).getLsbD n = (decide (n < 8 * keyBytesRead k) && key.getLsbD n) := by
  unfold usedKey
  rw [BitVec.getLsbD_setWidth, BitVec.getLsbD_setWidth]
  by_cases hn : n < 512
  · simp [hn]
  · simp [hn, BitVec.getLsbD_of_ge _ _ (Nat.le_of_not_lt hn)]

theorem usedKey_lt (k : Byte) (key : KeyOperand) : (usedKey k key).toNat < 2 ^ (8 * keyBytesRead k) := by
  unfold usedKey
  rw [BitVec.toNat_setWidth]
  exact lt_of_le_of_lt (Nat.mod_le _ _) (BitVec.isLt _)

/-- A well-formed key operand is kept whole. -/
theorem usedKey_eq_self {k : Byte} {key : KeyOperand} (h : key.toNat < 2 ^ (8 * keyBytesRead k)) :
    usedKey k key = key := by
  refine BitVec.eq_of_getLsbD_eq fun n _ => ?_
  rw [usedKey_getLsbD]
  by_cases hn : n < 8 * keyBytesRead k
  · simp [hn]
  · have : key.getLsbD n = false :=
      Nat.testBit_lt_two_pow (lt_of_lt_of_le h (Nat.pow_le_pow_right (by decide) (by omega)))
    rw [this]
    simp

/-- Everything a decoded command can be, with the fields of its word. -/
theorem decode_ok_cases {c : PortCommand} {i : Instr} (h : decode c = .ok i) :
    (i = .init (aField c.word) (bField c.word) (usedKey (bField c.word) c.key) ∧ opField c.word = 1) ∨
    (i = .absorb (aField c.word) ∧ opField c.word = 2 ∧ bField c.word = 0) ∨
    (i = .final ∧ opField c.word = 3 ∧ bField c.word = 0 ∧ aField c.word = 0) ∨
    (i = .rddig (aField c.word) ∧ opField c.word = 4 ∧ bField c.word = 0) := by
  unfold decode at h
  simp only at h
  split at h
  · cases h
    simp_all
  · split at h
    · split at h
      · cases h
        simp_all
      · cases h
    · split at h
      · split at h
        · cases h
          simp_all
        · cases h
      · split at h
        · split at h
          · cases h
            simp_all
          · cases h
        · cases h

/-- Bit `i` of key byte `j` is bit `8j + i` of the port. -/
theorem keyByte_getLsbD (key : KeyOperand) (j i : Nat) (hi : i < 8) :
    (keyByte key j).getLsbD i = key.getLsbD (8 * j + i) := by
  simp [keyByte, hi]

end Sys2Proof.Laws
end

