-- ==== Sys2Proof/Laws/State.lean ====
section
/-! SUPPORT. What each named update of the state does to each field, so that no proof unfolds a record update: one lemma per
field and update, true by `rfl` (`flushFull` has two cases). -/

namespace Sys2Proof.Machine

@[simp] theorem respond_h (c : RspCode) (d : Byte) (s : State) :
    (respond c d s).h = s.h := rfl

@[simp] theorem respond_t0 (c : RspCode) (d : Byte) (s : State) :
    (respond c d s).t0 = s.t0 := rfl

@[simp] theorem respond_t1 (c : RspCode) (d : Byte) (s : State) :
    (respond c d s).t1 = s.t1 := rfl

@[simp] theorem respond_buf (c : RspCode) (d : Byte) (s : State) :
    (respond c d s).buf = s.buf := rfl

@[simp] theorem respond_filled (c : RspCode) (d : Byte) (s : State) :
    (respond c d s).filled = s.filled := rfl

@[simp] theorem respond_outlen (c : RspCode) (d : Byte) (s : State) :
    (respond c d s).outlen = s.outlen := rfl

@[simp] theorem respond_phase (c : RspCode) (d : Byte) (s : State) :
    (respond c d s).phase = s.phase := rfl

@[simp] theorem respond_pending (c : RspCode) (d : Byte) (s : State) :
    (respond c d s).pending = s.pending := rfl

@[simp] theorem respond_responses (c : RspCode) (d : Byte) (s : State) :
    (respond c d s).responses = s.responses ++ [{ code := c, data := d }] := rfl

@[simp] theorem raiseInvalidParameter_h (s : State) :
    (raiseInvalidParameter s).h = s.h := rfl

@[simp] theorem raiseInvalidParameter_t0 (s : State) :
    (raiseInvalidParameter s).t0 = s.t0 := rfl

@[simp] theorem raiseInvalidParameter_t1 (s : State) :
    (raiseInvalidParameter s).t1 = s.t1 := rfl

@[simp] theorem raiseInvalidParameter_buf (s : State) :
    (raiseInvalidParameter s).buf = s.buf := rfl

@[simp] theorem raiseInvalidParameter_filled (s : State) :
    (raiseInvalidParameter s).filled = s.filled := rfl

@[simp] theorem raiseInvalidParameter_outlen (s : State) :
    (raiseInvalidParameter s).outlen = s.outlen := rfl

@[simp] theorem raiseInvalidParameter_phase (s : State) :
    (raiseInvalidParameter s).phase = s.phase := rfl

@[simp] theorem raiseInvalidParameter_pending (s : State) :
    (raiseInvalidParameter s).pending = s.pending := rfl

@[simp] theorem raiseInvalidParameter_responses (s : State) :
    (raiseInvalidParameter s).responses = s.responses ++ [{ code := .invalidParameter, data := 0 }] := rfl

@[simp] theorem ctrAdd_h (n : Byte) (s : State) :
    (ctrAdd n s).h = s.h := rfl

@[simp] theorem ctrAdd_t0 (n : Byte) (s : State) :
    (ctrAdd n s).t0 = s.t0 + n.setWidth 64 := rfl

@[simp] theorem ctrAdd_t1 (n : Byte) (s : State) :
    (ctrAdd n s).t1 = if counterCarry (s.t0 + n.setWidth 64) (n.setWidth 64) then s.t1 + 1 else s.t1 := rfl

@[simp] theorem ctrAdd_buf (n : Byte) (s : State) :
    (ctrAdd n s).buf = s.buf := rfl

@[simp] theorem ctrAdd_filled (n : Byte) (s : State) :
    (ctrAdd n s).filled = s.filled := rfl

@[simp] theorem ctrAdd_outlen (n : Byte) (s : State) :
    (ctrAdd n s).outlen = s.outlen := rfl

@[simp] theorem ctrAdd_phase (n : Byte) (s : State) :
    (ctrAdd n s).phase = s.phase := rfl

@[simp] theorem ctrAdd_pending (n : Byte) (s : State) :
    (ctrAdd n s).pending = s.pending := rfl

@[simp] theorem ctrAdd_responses (n : Byte) (s : State) :
    (ctrAdd n s).responses = s.responses := rfl

@[simp] theorem compress_h (last : Bool) (s : State) :
    (compress last s).h = compressWords s.h s.t0 s.t1 (messageWords s.buf) last := rfl

@[simp] theorem compress_t0 (last : Bool) (s : State) :
    (compress last s).t0 = s.t0 := rfl

@[simp] theorem compress_t1 (last : Bool) (s : State) :
    (compress last s).t1 = s.t1 := rfl

@[simp] theorem compress_buf (last : Bool) (s : State) :
    (compress last s).buf = s.buf := rfl

@[simp] theorem compress_filled (last : Bool) (s : State) :
    (compress last s).filled = s.filled := rfl

@[simp] theorem compress_outlen (last : Bool) (s : State) :
    (compress last s).outlen = s.outlen := rfl

@[simp] theorem compress_phase (last : Bool) (s : State) :
    (compress last s).phase = s.phase := rfl

@[simp] theorem compress_pending (last : Bool) (s : State) :
    (compress last s).pending = s.pending := rfl

@[simp] theorem compress_responses (last : Bool) (s : State) :
    (compress last s).responses = s.responses := rfl

@[simp] theorem padTail_h (s : State) :
    (padTail s).h = s.h := rfl

@[simp] theorem padTail_t0 (s : State) :
    (padTail s).t0 = s.t0 := rfl

@[simp] theorem padTail_t1 (s : State) :
    (padTail s).t1 = s.t1 := rfl

@[simp] theorem padTail_buf (s : State) :
    (padTail s).buf = clearTail s.buf s.filled := rfl

@[simp] theorem padTail_filled (s : State) :
    (padTail s).filled = s.filled := rfl

@[simp] theorem padTail_outlen (s : State) :
    (padTail s).outlen = s.outlen := rfl

@[simp] theorem padTail_phase (s : State) :
    (padTail s).phase = s.phase := rfl

@[simp] theorem padTail_pending (s : State) :
    (padTail s).pending = s.pending := rfl

@[simp] theorem padTail_responses (s : State) :
    (padTail s).responses = s.responses := rfl

@[simp] theorem initContext_h (outlen keylen : Byte) (s : State) :
    (initContext outlen keylen s).h = initialState outlen keylen := rfl

@[simp] theorem initContext_t0 (outlen keylen : Byte) (s : State) :
    (initContext outlen keylen s).t0 = 0 := rfl

@[simp] theorem initContext_t1 (outlen keylen : Byte) (s : State) :
    (initContext outlen keylen s).t1 = 0 := rfl

@[simp] theorem initContext_buf (outlen keylen : Byte) (s : State) :
    (initContext outlen keylen s).buf = Memory.zeroed := rfl

@[simp] theorem initContext_filled (outlen keylen : Byte) (s : State) :
    (initContext outlen keylen s).filled = 0 := rfl

@[simp] theorem initContext_outlen (outlen keylen : Byte) (s : State) :
    (initContext outlen keylen s).outlen = outlen := rfl

@[simp] theorem initContext_phase (outlen keylen : Byte) (s : State) :
    (initContext outlen keylen s).phase = s.phase := rfl

@[simp] theorem initContext_pending (outlen keylen : Byte) (s : State) :
    (initContext outlen keylen s).pending = s.pending := rfl

@[simp] theorem initContext_responses (outlen keylen : Byte) (s : State) :
    (initContext outlen keylen s).responses = s.responses := rfl

@[simp] theorem takeInput_h (rest : List PortInput) (s : State) :
    (takeInput rest s).h = s.h := rfl

@[simp] theorem takeInput_t0 (rest : List PortInput) (s : State) :
    (takeInput rest s).t0 = s.t0 := rfl

@[simp] theorem takeInput_t1 (rest : List PortInput) (s : State) :
    (takeInput rest s).t1 = s.t1 := rfl

@[simp] theorem takeInput_buf (rest : List PortInput) (s : State) :
    (takeInput rest s).buf = s.buf := rfl

@[simp] theorem takeInput_filled (rest : List PortInput) (s : State) :
    (takeInput rest s).filled = s.filled := rfl

@[simp] theorem takeInput_outlen (rest : List PortInput) (s : State) :
    (takeInput rest s).outlen = s.outlen := rfl

@[simp] theorem takeInput_phase (rest : List PortInput) (s : State) :
    (takeInput rest s).phase = s.phase := rfl

@[simp] theorem takeInput_pending (rest : List PortInput) (s : State) :
    (takeInput rest s).pending = rest := rfl

@[simp] theorem takeInput_responses (rest : List PortInput) (s : State) :
    (takeInput rest s).responses = s.responses := rfl

@[simp] theorem present_h (c : PortCommand) (s : State) :
    (present c s).h = s.h := rfl

@[simp] theorem present_t0 (c : PortCommand) (s : State) :
    (present c s).t0 = s.t0 := rfl

@[simp] theorem present_t1 (c : PortCommand) (s : State) :
    (present c s).t1 = s.t1 := rfl

@[simp] theorem present_buf (c : PortCommand) (s : State) :
    (present c s).buf = s.buf := rfl

@[simp] theorem present_filled (c : PortCommand) (s : State) :
    (present c s).filled = s.filled := rfl

@[simp] theorem present_outlen (c : PortCommand) (s : State) :
    (present c s).outlen = s.outlen := rfl

@[simp] theorem present_phase (c : PortCommand) (s : State) :
    (present c s).phase = s.phase := rfl

@[simp] theorem present_pending (c : PortCommand) (s : State) :
    (present c s).pending = .command c :: s.pending := rfl

@[simp] theorem present_responses (c : PortCommand) (s : State) :
    (present c s).responses = s.responses := rfl

@[simp] theorem applyReset_h (s : State) :
    (applyReset s).h = State.reset.h := rfl

@[simp] theorem applyReset_t0 (s : State) :
    (applyReset s).t0 = State.reset.t0 := rfl

@[simp] theorem applyReset_t1 (s : State) :
    (applyReset s).t1 = State.reset.t1 := rfl

@[simp] theorem applyReset_buf (s : State) :
    (applyReset s).buf = State.reset.buf := rfl

@[simp] theorem applyReset_filled (s : State) :
    (applyReset s).filled = State.reset.filled := rfl

@[simp] theorem applyReset_outlen (s : State) :
    (applyReset s).outlen = State.reset.outlen := rfl

@[simp] theorem applyReset_phase (s : State) :
    (applyReset s).phase = State.reset.phase := rfl

@[simp] theorem applyReset_pending (s : State) :
    (applyReset s).pending = s.pending := rfl

@[simp] theorem applyReset_responses (s : State) :
    (applyReset s).responses = s.responses := rfl

@[simp] theorem flushFull_buf (s : State) : (flushFull s).buf = s.buf := by
  unfold flushFull
  split <;> rfl

@[simp] theorem flushFull_outlen (s : State) : (flushFull s).outlen = s.outlen := by
  unfold flushFull
  split <;> rfl

@[simp] theorem flushFull_phase (s : State) : (flushFull s).phase = s.phase := by
  unfold flushFull
  split <;> rfl

@[simp] theorem flushFull_pending (s : State) : (flushFull s).pending = s.pending := by
  unfold flushFull
  split <;> rfl

@[simp] theorem flushFull_responses (s : State) : (flushFull s).responses = s.responses := by
  unfold flushFull
  split <;> rfl

end Sys2Proof.Machine
end

