-- ==== Sys2Proof/Laws/Ops.lean ====
section
/-! SUPPORT. One lemma per shared operation that says all it can do; the proofs about commands cite these and do not unfold the
operations. -/

namespace Sys2Proof.Machine

/-- A one-byte `MemWrite` inside the buffer writes that byte. -/
theorem memWrite_one {m : Memory} {a : Nat} (b : Byte) (ha : a < 128) :
    memWrite m a 1 b.toNat = .ok (m.write a b) := by
  rw [memWrite, if_pos (by omega)]
  simp [Memory.writeLE]

/-- A one-byte `MemWrite` outside the buffer is a fault. -/
theorem memWrite_one_outside {m : Memory} {a : Nat} (b : Byte) (ha : 128 ≤ a) :
    memWrite m a 1 b.toNat = .error .bufferIndex := by
  rw [memWrite, if_neg (by omega)]

theorem filled_eq_128 {n : Byte} : n = 128 ↔ n.toNat = 128 := by
  constructor
  · rintro rfl
    rfl
  · intro h
    exact BitVec.eq_of_toNat_eq h

theorem flushFull_of_full {s : State} (h : s.filled = 128) :
    flushFull s = { compress false (ctrAdd 128 s) with filled := 0 } := if_pos h

theorem flushFull_of_not_full {s : State} (h : s.filled ≠ 128) : flushFull s = s := if_neg h

/-- After the first step of `ABSORB_BYTE` there is room for a byte. -/
theorem flushFull_filled_lt {s : State} (h : s.filled.toNat ≤ 128) : (flushFull s).filled.toNat < 128 := by
  by_cases hf : s.filled = 128
  · rw [flushFull_of_full hf]
    exact Nat.zero_lt_succ 127
  · rw [flushFull_of_not_full hf]
    have : s.filled.toNat ≠ 128 := fun e => hf (filled_eq_128.mpr e)
    omega

/-- `ABSORB_BYTE` on a legal `filled`: the flush, then the byte at index `filled`, then `filled + 1`. -/
theorem absorbByte_eq {s : State} (b : Byte) (h : s.filled.toNat ≤ 128) :
    absorbByte b s = .ok { flushFull s with
      buf := s.buf.write (flushFull s).filled.toNat b
      filled := (flushFull s).filled + 1 } := by
  rw [absorbByte, appendByte, memWrite_one b (flushFull_filled_lt h), flushFull_buf]

/-- `ABSORB_BYTE` on a `filled` past 128, which no run reaches, is a fault. -/
theorem absorbByte_outside {s : State} (b : Byte) (h : 128 < s.filled.toNat) :
    absorbByte b s = .error .bufferIndex := by
  have hf : s.filled ≠ 128 := fun e => by
    rw [filled_eq_128] at e
    omega
  rw [absorbByte, flushFull_of_not_full hf, appendByte, memWrite_one_outside b (by omega)]

/-- `filled` after `ABSORB_BYTE`, as a number. -/
theorem filled_succ_toNat {n : Byte} (h : n.toNat < 128) : (n + 1).toNat = n.toNat + 1 := by
  rw [BitVec.toNat_add]
  simp
  omega

theorem absorbBytes_append (bs cs : List Byte) (s : State) :
    absorbBytes (bs ++ cs) s = (absorbBytes bs s).bind (absorbBytes cs) := by
  induction bs generalizing s with
  | nil => rfl
  | cons b bs ih =>
    rw [List.cons_append, absorbBytes, absorbBytes]
    cases absorbByte b s with
    | error f => rfl
    | ok s' => exact ih s'

/-- Bytes written one after the other from index `a` up. -/
def Memory.writeBytes : Memory → Nat → List Byte → Memory
  | m, _, [] => m
  | m, a, b :: bs => Memory.writeBytes (m.write a b) (a + 1) bs

theorem Memory.wf_writeBytes {m : Memory} {a : Nat} {bs : List Byte} (h : m.wf = true) (hn : a + bs.length ≤ 128) :
    (m.writeBytes a bs).wf = true := by
  induction bs generalizing m a with
  | nil => exact h
  | cons b bs ih =>
    rw [List.length_cons] at hn
    exact ih (Memory.wf_write h (by omega)) (by omega)

theorem Memory.read_writeBytes {m : Memory} {a : Nat} {bs : List Byte} (h : m.wf = true)
    (hn : a + bs.length ≤ 128) (x : Nat) :
    (m.writeBytes a bs).read x = if a ≤ x then (bs[x - a]?).getD (m.read x) else m.read x := by
  induction bs generalizing m a with
  | nil => simp [Memory.writeBytes]
  | cons b bs ih =>
    rw [List.length_cons] at hn
    rw [Memory.writeBytes, ih (Memory.wf_write h (by omega)) (by omega), Memory.read_write h]
    rcases lt_trichotomy x a with hlt | heq | hgt
    · rw [if_neg (by omega), if_neg (by omega), if_neg (by omega)]
    · rw [if_neg (by omega), if_pos heq, if_pos (by omega), heq, Nat.sub_self]
      rfl
    · rw [if_pos (by omega), if_neg (by omega), if_pos (by omega), show x - a = (x - (a + 1)) + 1 by omega,
        List.getElem?_cons_succ]

/-- Bytes that fit in the buffer are appended and nothing is compressed. -/
theorem absorbBytes_fits {bs : List Byte} {s : State} (h : s.filled.toNat + bs.length ≤ 128) :
    absorbBytes bs s = .ok { s with
      buf := s.buf.writeBytes s.filled.toNat bs
      filled := s.filled + BitVec.ofNat 8 bs.length } := by
  induction bs generalizing s with
  | nil =>
    simp [absorbBytes, Memory.writeBytes]
  | cons b bs ih =>
    rw [List.length_cons] at h
    have hf : s.filled ≠ 128 := fun e => by
      rw [filled_eq_128] at e
      omega
    have hs : (s.filled + 1).toNat = s.filled.toNat + 1 := filled_succ_toNat (by omega)
    rw [absorbBytes, absorbByte_eq b (by omega), flushFull_of_not_full hf]
    simp only
    rw [ih (by simp only [hs]; omega)]
    simp only [hs, Memory.writeBytes, List.length_cons]
    congr 2
    rw [BitVec.add_assoc]
    congr 1
    rw [BitVec.ofNat_add, BitVec.add_comm]
    rfl

theorem inPhase_same {p : Phase} {s : State} {o : Host.Outcome State Fault Refusal} (h : s.phase = p) :
    inPhase p s o = o := if_pos h

theorem inPhase_other {p : Phase} {s : State} {o : Host.Outcome State Fault Refusal} (h : s.phase ≠ p) :
    inPhase p s o = .refused .wrongPhase := if_neg h

/-- A command that answers a next state through a phase check was in that phase. -/
theorem inPhase_next {p : Phase} {s s' : State} {o : Host.Outcome State Fault Refusal}
    (h : inPhase p s o = .next s') : s.phase = p ∧ o = .next s' := by
  by_cases hp : s.phase = p
  · rw [inPhase_same hp] at h
    exact ⟨hp, h⟩
  · rw [inPhase_other hp] at h
    exact absurd h (by simp)

/-- A sequence is its parts run one after the other. -/
theorem execSeq_append {is js : List Instr} {s s' : State} (h : execSeq is s = .next s') :
    execSeq (is ++ js) s = execSeq js s' := by
  induction is generalizing s with
  | nil =>
    cases h
    rfl
  | cons i is ih =>
    rw [List.cons_append, execSeq]
    rw [execSeq] at h
    cases hi : exec i s with
    | next s1 =>
      rw [hi] at h
      exact ih h
    | fault f =>
      rw [hi] at h
      cases h
    | refused r =>
      rw [hi] at h
      cases h

end Sys2Proof.Machine
end

