-- ==== Sys2Proof/Laws/Exec.lean ====
section
/-! SUPPORT. Everything each command can do when it answers a next state, and everything a step can do. -/

namespace Sys2Proof.Machine

theorem keyBytes_length (k : Byte) (key : KeyOperand) : (keyBytes k key).length = k.toNat := by simp [keyBytes]

theorem paramsInvalid_iff {o k : Byte} :
    paramsInvalid o k = true ↔ (o.toNat = 0 ∨ o.toNat > 64 ∨ k.toNat > 64) := decide_eq_true_iff

theorem paramsValid_iff {o k : Byte} :
    paramsInvalid o k = false ↔ (1 ≤ o.toNat ∧ o.toNat ≤ 64 ∧ k.toNat ≤ 64) := by
  rw [← Bool.not_eq_true, paramsInvalid_iff]
  omega

/-- The state a successful INIT leaves, with the key block written at once (R106). -/
def initDone (outlen keylen : Byte) (key : KeyOperand) (s : State) : State :=
  respond .ok 0 { initContext outlen keylen s with
    buf := Memory.zeroed.writeBytes 0 (keyBytes keylen key)
    filled := if 0 < keylen.toNat then 128 else 0
    phase := .active }

theorem execInit_invalid {o k : Byte} (key : KeyOperand) (s : State) (h : paramsInvalid o k = true) :
    execInit o k key s = .next (raiseInvalidParameter s) := by
  rw [execInit, if_pos h]

theorem execInit_valid {o k : Byte} (key : KeyOperand) (s : State) (h : paramsInvalid o k = false) :
    execInit o k key s = .next (initDone o k key s) := by
  obtain ⟨h1, h2, h3⟩ := paramsValid_iff.mp h
  rw [execInit, if_neg (by simp [h])]
  unfold loadKey
  by_cases hk : k.toNat > 0
  · rw [if_pos hk, absorbBytes_fits (by rw [keyBytes_length]; simp [initContext]; omega)]
    unfold initDone
    rw [if_pos hk]
    rfl
  · rw [if_neg hk]
    unfold initDone
    rw [if_neg hk, show keyBytes k key = [] from List.eq_nil_of_length_eq_zero (by rw [keyBytes_length]; omega)]
    rfl

/-- INIT that goes on either raised its exception or wrote the whole context. -/
theorem execInit_next {o k : Byte} {key : KeyOperand} {s t : State} (h : execInit o k key s = .next t) :
    (paramsInvalid o k = true ∧ t = raiseInvalidParameter s) ∨
    (paramsInvalid o k = false ∧ t = initDone o k key s) := by
  cases hv : paramsInvalid o k with
  | true =>
    rw [execInit_invalid key s hv] at h
    cases h
    exact .inl ⟨rfl, rfl⟩
  | false =>
    rw [execInit_valid key s hv] at h
    cases h
    exact .inr ⟨rfl, rfl⟩

/-- ABSORB that goes on was in ACTIVE with a legal `filled`, and did the flush and the append. -/
theorem execAbsorb_next {b : Byte} {s t : State} (h : execAbsorb b s = .next t) :
    s.phase = .active ∧ s.filled.toNat ≤ 128 ∧ t = respond .ok 0 { flushFull s with
      buf := s.buf.write (flushFull s).filled.toNat b
      filled := (flushFull s).filled + 1 } := by
  obtain ⟨hp, h⟩ := inPhase_next h
  by_cases hf : s.filled.toNat ≤ 128
  · rw [absorbByte_eq b hf] at h
    cases h
    exact ⟨hp, hf, rfl⟩
  · rw [absorbByte_outside b (by omega)] at h
    cases h

/-- FINAL that goes on was in ACTIVE, and counted, padded and compressed. -/
theorem execFinal_next {s t : State} (h : execFinal s = .next t) :
    s.phase = .active ∧ t = respond .ok 0
      { compress true (padTail (ctrAdd s.filled s)) with filled := 0, phase := .done } := by
  obtain ⟨hp, h⟩ := inPhase_next h
  cases h
  exact ⟨hp, rfl⟩

/-- RDDIG that goes on was in DONE with an index below `outlen`, and only responded. -/
theorem execRddig_next {idx : Byte} {s t : State} (h : execRddig idx s = .next t) :
    s.phase = .done ∧ idx.toNat < s.outlen.toNat ∧ ∃ b, digestByte s.h idx.toNat = some b ∧ t = respond .ok b s := by
  obtain ⟨hp, h⟩ := inPhase_next h
  split at h
  · rename_i hi
    split at h
    · rename_i b hb
      cases h
      exact ⟨hp, hi, b, hb, rfl⟩
    · cases h
  · cases h

/-- Everything a step can do. -/
theorem step_cases (s : State) :
    (s.pending = [] ∧ step s = .next s) ∨
    (∃ rest, s.pending = .reset :: rest ∧ step s = .next (applyReset (takeInput rest s))) ∨
    ∃ c rest, s.pending = .command c :: rest ∧
      ((∃ why, decode c = .error why ∧ step s = .refused (.reservedWord why)) ∨
        ∃ i, decode c = .ok i ∧ step s = exec i (takeInput rest s)) := by
  unfold step
  split
  · rename_i h
    exact .inl ⟨h, rfl⟩
  · rename_i rest h
    exact .inr (.inl ⟨rest, h, rfl⟩)
  · rename_i c rest h
    refine .inr (.inr ⟨c, rest, h, ?_⟩)
    cases decode c with
    | ok i => exact .inr ⟨i, rfl, rfl⟩
    | error why => exact .inl ⟨why, rfl, rfl⟩

end Sys2Proof.Machine
end

