-- ==== Sys2Proof/Laws/Mixer.lean ====
section
/-! SUPPORT. Laws of the mixer's vectors: a word after a write, and the eight statements of `G` under names of their own, so that
a proof about `G` reads them one at a time. -/

namespace Sys2Proof.Machine

theorem Words16.set_same (v : Words16) (i : Fin 16) (w : Word) : (v.set i w)[i] = w := by simp

theorem Words16.set_other (v : Words16) (i j : Fin 16) (w : Word) (h : i ≠ j) : (v.set i w)[j] = v[j] := by
  simp [Fin.val_ne_of_ne h]

/-- The vector after each of the eight statements of `G`. -/
theorem g_statements (v : Words16) (a b c d : Fin 16) (x y : Word) : ∃ v1 v2 v3 v4 v5 v6 v7 v8 : Words16,
    v1 = v.set a (v[a] + v[b] + x) ∧ v2 = v1.set d (rotr64 (v1[d] ^^^ v1[a]) 32) ∧ v3 = v2.set c (v2[c] + v2[d]) ∧
    v4 = v3.set b (rotr64 (v3[b] ^^^ v3[c]) 24) ∧ v5 = v4.set a (v4[a] + v4[b] + y) ∧
    v6 = v5.set d (rotr64 (v5[d] ^^^ v5[a]) 16) ∧ v7 = v6.set c (v6[c] + v6[d]) ∧
    v8 = v7.set b (rotr64 (v7[b] ^^^ v7[c]) 63) ∧ g v a b c d x y = v8 :=
  ⟨_, _, _, _, _, _, _, _, rfl, rfl, rfl, rfl, rfl, rfl, rfl, rfl, rfl⟩

end Sys2Proof.Machine
end

