-- ==== Sys2Proof/Laws/Run.lean ====
section
/-! SUPPORT. A run of the machine, one step at a time. -/

namespace Sys2Proof.Machine

theorem run_next {s t : State} (n : Nat) (h : step s = .next t) :
    (Host.Core.run Sys2Proof.core (n + 1) s : Host.Outcome State Fault Refusal) = Host.Core.run Sys2Proof.core n t := by
  have h' : Sys2Proof.core.step s = .next t := h
  simp only [Host.Core.run, h']

theorem run_fault {s : State} {f : Fault} (n : Nat) (h : step s = .fault f) :
    (Host.Core.run Sys2Proof.core (n + 1) s : Host.Outcome State Fault Refusal) = .fault f := by
  have h' : Sys2Proof.core.step s = .fault f := h
  simp only [Host.Core.run, h']

theorem run_refused {s : State} {r : Refusal} (n : Nat) (h : step s = .refused r) :
    (Host.Core.run Sys2Proof.core (n + 1) s : Host.Outcome State Fault Refusal) = .refused r := by
  have h' : Sys2Proof.core.step s = .refused r := h
  simp only [Host.Core.run, h']

end Sys2Proof.Machine
end

