-- ==== Sys2Proof/Tests/Slice0.lean ====
section
/-! SUPPORT. Own tests of the model, each of one step, one word or one operation, with expected values from
spec/95_test_vectors.md or a rule of the spec; and, for every statement with hypotheses, a witness that meets them. -/

namespace Sys2Proof.Tests

open Sys2Proof Sys2Proof.Machine

/-! ### States the tests start from -/

/-- The words of `h` after the hash of "abc" (S2). -/
def abcState : Vector Word 8 :=
  #v[0x0D4D1C983FA580BA, 0xE9F6129FB697276A, 0xB7C45A68142F214C, 0xD1A2FFDB6FBB124B,
     0x2D79AB2A39C5877D, 0x95CC3345DED552C2, 0x5A92F1DBA88AD318, 0x239900D4ED8623B9]

/-- A context absorbing an unkeyed message for a 64-byte digest. -/
def absorbing (filled : Byte) (buf : Memory) : State :=
  { State.reset with h := initialState 64 0, buf := buf, filled := filled, outlen := 64, phase := .active }

/-- A finished context with the chained state of "abc". -/
def finished (outlen : Byte) : State := { State.reset with h := abcState, outlen := outlen, phase := .done }

/-- The buffer with `buf[j] = j`. -/
def ramp : Memory := (List.range' 1 127).map fun j => (j, BitVec.ofNat 8 j)

/-- The buffer that holds "abc". -/
def abcBuffer : Memory := [(0, 0x61), (1, 0x62), (2, 0x63)]

/-- The state with this one input at the port. -/
def presenting (p : PortInput) (s : State) : State := { s with pending := [p] }

/-- The outcome is a next state of which `p` holds. -/
def nextSatisfies (o : Host.Outcome State Fault Refusal) (p : State → Bool) : Bool :=
  match o with
  | .next s => p s
  | .fault _ => false
  | .refused _ => false

/-- The reason of a refusal. -/
def refusalOf (o : Host.Outcome State Fault Refusal) : Option Refusal :=
  match o with
  | .next _ => none
  | .fault _ => none
  | .refused r => some r

/-! ### Well-formed commands -/

/-- Ill-formed: a key bit past the one key byte. -/
theorem test_wellFormed_refuses_bits_past_key : (Instr.init 64 1 0x16B).wellFormed = false := by decide +kernel

/-- Ill-formed: a key bit although `keylen` exceeds 64, where no key byte is read. -/
theorem test_wellFormed_refuses_key_of_long_keylen : (Instr.init 64 65 1).wellFormed = false := by decide +kernel

theorem test_wellFormed_accepts_full_key : (Instr.init 64 64 (BitVec.allOnes 512)).wellFormed = true := by decide +kernel

/-! ### Decoding: words written from R72 and R73, and the table of spec/95_test_vectors.md section 3.6 -/

/-- `0001 | 00000001 | 00100000`, R83's example. -/
theorem test_decode_init : decode { word := 0b00010000000100100000#20, key := 0x6B } = .ok (.init 32 1 0x6B) := by
  decide +kernel

theorem test_decode_absorb : decode { word := 0x200FF, key := 0 } = .ok (.absorb 0xFF) := by decide +kernel

theorem test_decode_final : decode { word := 0x30000, key := 0 } = .ok .final := by decide +kernel

theorem test_decode_rddig : decode { word := 0x4003F, key := 0 } = .ok (.rddig 63) := by decide +kernel

theorem test_decode_reserved :
    ([0x00000, 0x00001, 0x50000, 0x80000, 0xF0000, 0xFFFFF] : List CmdWord).all
        (fun w => decode { word := w, key := 0 } = .error .opcode) = true ∧
    ([0x20100, 0x2FF61, 0x40100] : List CmdWord).all
        (fun w => decode { word := w, key := 0 } = .error .operandB) = true ∧
    ([0x30001, 0x30100, 0x3FFFF] : List CmdWord).all
        (fun w => decode { word := w, key := 0 } = .error .finalOperand) = true := by
  decide +kernel

/-- The host's numbering: the word in bits 19..0, in three whole bytes. -/
theorem test_decodeTableWord :
    decodeTableWord 24 0x10040 = some (.init 64 0 0) ∧ decodeTableWord 24 0x20061 = some (.absorb 0x61) ∧
    decodeTableWord 24 0x30000 = some .final ∧ decodeTableWord 24 0x40005 = some (.rddig 5) ∧
    decodeTableWord 24 0x20100 = none := by
  decide +kernel

/-- The examples of R83. -/
theorem test_assemble :
    assemble (.init 32 1 [0x6B]) = some { word := 0x10120, key := 0x6B } ∧
    assemble (.init 64 0 []) = some { word := 0x10040, key := 0 } ∧
    assemble (.absorb 0x61) = some { word := 0x20061, key := 0 } ∧
    assemble (.rddig 5) = some { word := 0x40005, key := 0 } := by
  decide +kernel

/-! ### INIT: rows I3, I5, I9, I12 of section 3.1, and the boundary of R101 -/

/-- I12: the closed form of `h[0]`, the key byte, `filled`. -/
theorem test_init_keyed :
    nextSatisfies (execInit 32 1 0x6B (finished 64)) (fun t =>
      t.h[0] = 0x6A09E667F2BDC828 ∧ t.buf = [(0, 0x6B)] ∧ t.filled = 128 ∧ t.t0 = 0 ∧ t.outlen = 32 ∧
      t.phase = .active ∧ t.responses = [{ code := .ok, data := 0 }]) = true := by
  decide +kernel

/-- I3 and X12: a rejected INIT in DONE leaves everything and responds (1, 0). -/
theorem test_init_rejected :
    nextSatisfies (execInit 64 65 0x6B (finished 64)) (fun t =>
      t = { finished 64 with responses := [{ code := .invalidParameter, data := 0 }] }) = true := by
  decide +kernel

/-- I5, and the accepted and rejected boundary values of R101. -/
theorem test_init_parameters :
    (initialState 64 0)[0] = 0x6A09E667F2BDC948 ∧ paramsInvalid 1 0 = false ∧ paramsInvalid 64 64 = false ∧
    paramsInvalid 0 0 = true ∧ paramsInvalid 65 0 = true ∧ paramsInvalid 64 65 = true := by
  decide +kernel

/-! ### ABSORB and the counter: sections 3.2 and 3.3 -/

/-- Byte 128 of section 3.3: the full block is counted and compressed first, then 0x80 lands in `buf[0]`. -/
theorem test_absorb_full_block :
    nextSatisfies (execAbsorb 0x80 (absorbing 128 ramp)) (fun t =>
      t.t0 = 0x80 ∧ t.t1 = 0 ∧ t.filled = 1 ∧ t.buf.read 0 = 0x80 ∧ t.buf.read 1 = 0x01 ∧ t.buf.read 127 = 0x7F ∧
      t.h = #v[0xFFA0852A267EB85A, 0xEE3E4A8743C6C30B, 0x28A559F71459300A, 0x61B0EEAF429E7346,
             0x2F194672BCED790F, 0xBEF760BB734A4A5D, 0x37410E514215C327, 0xE96B7E8825D0F5A7]) = true := by
  decide +kernel

/-- Byte 127 of section 3.3: the 128th byte is appended and nothing is compressed. -/
theorem test_absorb_lazy :
    nextSatisfies (execAbsorb 0x7F (absorbing 127 (ramp.take 126))) (fun t =>
      t.h = initialState 64 0 ∧ t.t0 = 0 ∧ t.filled = 128 ∧ t.buf = ramp) = true := by
  decide +kernel

/-- Rows T3, T5, T6, T8, T9, T12 of section 3.2. -/
theorem test_ctrAdd_rows :
    let add (t0 t1 : Word) (n : Byte) : Word × Word :=
      let s := ctrAdd n { State.reset with t0 := t0, t1 := t1 }
      (s.t0, s.t1)
    add 0xFFFFFFFFFFFFFF80 0 128 = (0, 1) ∧ add 0xFFFFFFFFFFFFFFFF 0 128 = (0x7F, 1) ∧
    add 0xFFFFFFFFFFFFFF7F 0 128 = (0xFFFFFFFFFFFFFFFF, 0) ∧ add 5 7 0 = (5, 7) ∧
    add 0xFFFFFFFFFFFFFFFF 0xFFFFFFFFFFFFFFFF 1 = (0, 0) ∧ add 0xFFFFFFFFFFFFFFFF 3 127 = (0x7E, 4) := by
  decide +kernel

/-! ### The mixer: R141, R154 and section 3.4 -/

theorem test_rotr64 :
    rotr64 0x0000000000000001 63 = 0x0000000000000002 ∧ rotr64 0x0000000000000001 32 = 0x0000000100000000 ∧
    rotr64 0x0123456789ABCDEF 24 = 0xABCDEF0123456789 ∧ rotr64 0x0123456789ABCDEF 16 = 0xCDEF0123456789AB := by
  decide +kernel

/-- The working vector of "abc" and its first call of `G`. -/
theorem test_g_first_call :
    let v := workingVector (initialState 64 0) 3 0 true
    let v' := g v 0 4 8 12 0x636261 0
    v[12] = 0x510E527FADE682D2 ∧ v[14] = 0xE07C265404BE4294 ∧
    v'[0] = 0xF0C9AA0F86491DEA ∧ v'[4] = 0xB7DEFC3D0277E11F ∧ v'[8] = 0xEE5E0F39647A9FFF ∧
    v'[12] = 0x7772FC2886A76C5F ∧ v'[1] = v[1] := by
  decide +kernel

/-- "after round 0" of section 3.4, all sixteen words. -/
theorem test_mixRound_zero :
    mixRound (workingVector (initialState 64 0) 3 0 true) (messageWords abcBuffer) 0 =
    #v[0x86B7C1568029BB79, 0xC12CBCC809FF59F3, 0xC6A5214CC0EACA8E, 0x0C87CD524C14CC5D,
       0x44EE6039BD86A9F7, 0xA447C850AA694A7E, 0xDE080F1BB1C0F84B, 0x595CB8A9A1ACA66C,
       0xBEC3AE837EAC4887, 0x6267FC79DF9D6AD1, 0xFA87B01273FA6DBE, 0x521A715C63E08D8A,
       0xE02D0975B8D37A83, 0x1C7B754F08B7D193, 0x8F885A76B6E578FE, 0x2318A24E2140FC64] := by
  decide +kernel

/-! ### FINAL and RDDIG: sections 3.3 to 3.5 -/

/-- The "abc" compression. -/
theorem test_final_abc :
    nextSatisfies (execFinal (absorbing 3 abcBuffer)) (fun t =>
      t.h = abcState ∧ t.t0 = 3 ∧ t.filled = 0 ∧ t.phase = .done ∧ t.buf = abcBuffer) = true := by
  decide +kernel

/-- B of section 3.3: the stale bytes are zeroed before the compression. -/
theorem test_final_pads_stale_bytes :
    nextSatisfies (execFinal { absorbing 1 ((0, 0x80) :: ramp) with
      t0 := 0x80
      h := #v[0xFFA0852A267EB85A, 0xEE3E4A8743C6C30B, 0x28A559F71459300A, 0x61B0EEAF429E7346,
              0x2F194672BCED790F, 0xBEF760BB734A4A5D, 0x37410E514215C327, 0xE96B7E8825D0F5A7] }) (fun t =>
      t.t0 = 0x81 ∧ t.buf = [(0, 0x80)] ∧
      t.h = #v[0x5F1D034AD41197F5, 0x611E5D063C41A997, 0x32908599DE7E414C, 0x3E4D44FDD2BA495F,
             0x14E1C4AE19BE1844, 0xBC987820571AAC49, 0x296635CF1B6AD757, 0x8F64C4A583C6202C]) = true := by
  decide +kernel

/-- F2 of section 3.5. -/
theorem test_rddig_bytes :
    ([(0, 0xBA), (1, 0x80), (7, 0x0D), (8, 0x6A), (9, 0x27), (31, 0xD1), (32, 0x7D), (62, 0x99), (63, 0x23)] :
      List (Byte × Byte)).all (fun p => nextSatisfies (execRddig p.1 (finished 64)) (fun t =>
        t = { finished 64 with responses := [{ code := .ok, data := p.2 }] })) = true := by
  decide +kernel

/-- F2 and X11: an index at or past `outlen` is refused, although `h` has more bytes. -/
theorem test_rddig_past_outlen :
    refusalOf (execRddig 64 (finished 64)) = some .indexBeyondOutlen ∧ refusalOf (execRddig 255 (finished 64)) = some .indexBeyondOutlen ∧
    refusalOf (execRddig 20 (finished 20)) = some .indexBeyondOutlen := by
  decide +kernel

/-! ### The step: X1, X2, X3, X9, X10, X14 of section 3.8 -/

theorem test_step_refuses :
    refusalOf (step (State.reset.withFetchWord 24 0x20000)) = some .wrongPhase ∧
    refusalOf (step (State.reset.withFetchWord 24 0x30000)) = some .wrongPhase ∧
    refusalOf (step (State.reset.withFetchWord 24 0x40000)) = some .wrongPhase ∧
    refusalOf (step ((finished 64).withFetchWord 24 0x20000)) = some .wrongPhase ∧
    refusalOf (step ((finished 64).withFetchWord 24 0x30000)) = some .wrongPhase ∧
    refusalOf (step (State.reset.withFetchWord 24 0x20100)) = some (.reservedWord .operandB) := by
  decide +kernel

/-- X5: the first command after reset. -/
theorem test_step_init_after_reset :
    nextSatisfies (step (State.reset.withFetchWord 24 0x10040)) (fun t =>
      t.phase = .active ∧ t.outlen = 64 ∧ t.pending = [] ∧ t.h[0] = 0x6A09E667F2BDC948) = true := by
  decide +kernel

/-- R240: reset in the middle of a hash. -/
theorem test_step_reset : nextState (step (presenting .reset (absorbing 3 abcBuffer))) = some State.reset := by
  decide +kernel

/-! ### The invariant holds in states other than reset -/

theorem inv_absorbing (filled : Byte) (buf : Memory) (hb : buf.wf = true) (h : filled.toNat ≤ 128) (h0 : filled ≠ 0) :
    Inv (absorbing filled buf) where
  bufCanonical := hb
  filledRange _ := h
  outlenRange _ := ⟨show 1 ≤ (64 : Byte).toNat by decide, show (64 : Byte).toNat ≤ 64 by decide⟩
  wholeBlocks _ := rfl
  emptyIsFresh _ hf := absurd hf h0
  doneIsEmpty h := nomatch h

theorem inv_finished (outlen : Byte) (h1 : 1 ≤ outlen.toNat) (h2 : outlen.toNat ≤ 64) : Inv (finished outlen) where
  bufCanonical := rfl
  filledRange _ := Nat.zero_le _
  outlenRange _ := ⟨h1, h2⟩
  wholeBlocks h := nomatch h
  emptyIsFresh h := nomatch h
  doneIsEmpty _ := rfl

theorem ramp_wf : ramp.wf = true := by decide +kernel

theorem inv_absorbing_full : Inv (absorbing 128 ramp) := inv_absorbing 128 ramp ramp_wf (by decide) (by decide)

/-! ### Witnesses: reset, the step and encoding -/

theorem witness_ResetLeavesPhaseIdle : (presenting .reset (absorbing 3 abcBuffer)).pending = .reset :: [] := rfl

theorem witness_StepRunsTheDecodedCommand :
    (presenting (.command { word := 0x20061, key := 0 }) (absorbing 3 abcBuffer)).pending =
      .command { word := 0x20061, key := 0 } :: [] ∧
    decode { word := 0x20061, key := 0 } = .ok (.absorb 0x61) ∧
    decodeTableWord 24 0x1FFFF = some (.init 255 255 0) := by
  refine ⟨rfl, ?_, ?_⟩ <;> decide +kernel

theorem witness_ContextHeldBetweenCommands : (absorbing 3 abcBuffer).pending = [] := rfl

theorem witness_RunOfPresentedCommandsIsTheirSequence :
    (∀ i ∈ [Instr.init 64 1 0x6B, .absorb 0x61], i.wellFormed = true) ∧
    ({ State.reset with pending := [Instr.init 64 1 0x6B, .absorb 0x61].map (fun i => PortInput.command (encode i)) ++
      [.reset] } : State).pending =
      [Instr.init 64 1 0x6B, .absorb 0x61].map (fun i => PortInput.command (encode i)) ++ [.reset] :=
  ⟨by decide +kernel, rfl⟩

theorem witness_DecodeInvertsEncode :
    (Instr.init 255 64 (BitVec.allOnes 512)).wellFormed = true ∧ (Instr.init 255 65 0).wellFormed = true ∧
    (Instr.absorb 255).wellFormed = true ∧ Instr.final.wellFormed = true ∧ (Instr.rddig 255).wellFormed = true := by
  decide +kernel

theorem witness_EncodeInvertsDecode :
    decode { word := 0x10140, key := 0x1FF } = .ok (.init 64 1 0xFF) := by decide +kernel

theorem witness_ReservedWordsExactly :
    (presenting (.command { word := 0x30001, key := 0 }) State.reset).pending =
      .command { word := 0x30001, key := 0 } :: [] ∧
    decode { word := 0x30001, key := 0 } = .error .finalOperand := by
  refine ⟨rfl, ?_⟩
  decide +kernel

/-- The first clause: an INIT word of the longest key and its last byte. The second: keys that differ past the key's one byte. The
third: the same, and a `keylen` past 64 with keys that differ everywhere. -/
theorem witness_KeyBitsPastTheLengthIgnored :
    ((0x14040 : CmdWord).extractLsb' 16 4 = 0x1 ∧ 63 < keyBytesRead ((0x14040 : CmdWord).extractLsb' 8 8)) ∧
    ((0x10140 : CmdWord).extractLsb' 16 4 = 0x1 ∧
      ∀ n, n < 8 * keyBytesRead ((0x10140 : CmdWord).extractLsb' 8 8) →
        (0x6B : KeyOperand).getLsbD n = (0x16B : KeyOperand).getLsbD n) ∧
    ((1 : Byte).toNat ≤ 64 → ∀ j, j < (1 : Byte).toNat → keyByte 0x6B j = keyByte 0x16B j) ∧
    ((65 : Byte).toNat ≤ 64 → ∀ j, j < (65 : Byte).toNat → keyByte 0x6B j = keyByte 0x7C j) := by
  refine ⟨?_, ?_, ?_, fun h => absurd h (by decide)⟩
  · decide +kernel
  · decide +kernel
  · intro _
    decide +kernel

theorem witness_KeyBytesStandOnThePort : (List.replicate 64 (0xFF : Byte)).length ≤ 64 := by decide

theorem witness_AssembledLinesDecodeAsWritten :
    (255 < 256 ∧ 64 < 256 ∧ (List.replicate 64 (0xFF : Byte)).length = 64 ∧ 64 ≤ 64) ∧
    (64 < 256 ∧ 255 < 256 ∧ (List.replicate 255 (0 : Byte)).length = 255) :=
  ⟨⟨by decide, by decide, List.length_replicate, by decide⟩, by decide, by decide, List.length_replicate⟩

/-! ### Witnesses: constants, buffer, counter and mixer -/

theorem witness_SigmaRowsArePermutations : (10 : Nat) < 12 ∧ 11 < 12 := by decide

theorem witness_RotationMovesBits : (1 ≤ 63 ∧ 63 ≤ 63 ∧ 63 < 64) ∧ 1 ≤ 1 ∧ 1 ≤ 63 ∧ 0 < 64 := by decide

theorem witness_BufferReadAfterWrite :
    (ramp.wf = true ∧ 120 + 8 ≤ 128 ∧ 7 < 8 ∧ (119 < 120 ∨ 120 + 8 ≤ 119)) ∧ 128 < 121 + 8 :=
  ⟨⟨ramp_wf, by decide, by decide, by decide⟩, by decide⟩

theorem witness_MessageWordsAreLittleEndian : (7 : Nat) < 8 := by decide

theorem witness_MixingPrimitiveResult :
    ((0 : Fin 16) ≠ 5 ∧ (0 : Fin 16) ≠ 10 ∧ (0 : Fin 16) ≠ 15 ∧ (5 : Fin 16) ≠ 10 ∧ (5 : Fin 16) ≠ 15 ∧
      (10 : Fin 16) ≠ 15) ∧ (1 : Fin 16) ≠ 0 ∧ (1 : Fin 16) ≠ 5 ∧ (1 : Fin 16) ≠ 10 ∧ (1 : Fin 16) ≠ 15 := by
  decide

theorem witness_CallsOfOneHalfRoundCommute :
    [((0 : Fin 16), (5 : Fin 16), (10 : Fin 16), (15 : Fin 16)), (1, 6, 11, 12), (2, 7, 8, 13), (3, 4, 9, 14)] ∈
      ([[(0, 4, 8, 12), (1, 5, 9, 13), (2, 6, 10, 14), (3, 7, 11, 15)],
        [(0, 5, 10, 15), (1, 6, 11, 12), (2, 7, 8, 13), (3, 4, 9, 14)]] :
        List (List (Fin 16 × Fin 16 × Fin 16 × Fin 16))) ∧
    ((0 : Fin 16), (5 : Fin 16), (10 : Fin 16), (15 : Fin 16)) ≠ (3, 4, 9, 14) := by decide

/-- Two states that differ, and agree in what a compression reads. -/
theorem witness_CompressionWritesOnlyChainedState :
    absorbing 128 ramp ≠ absorbing 3 ramp ∧ (absorbing 128 ramp).h = (absorbing 3 ramp).h ∧
    (absorbing 128 ramp).t0 = (absorbing 3 ramp).t0 ∧ (absorbing 128 ramp).t1 = (absorbing 3 ramp).t1 ∧
    ∀ a, a < 128 → (absorbing 128 ramp).buf.read a = (absorbing 3 ramp).buf.read a := by
  refine ⟨fun h => ?_, rfl, rfl, rfl, fun _ _ => rfl⟩
  exact absurd (congrArg State.filled h) (by decide)

theorem witness_ParameterBlockLayout : 4 ≤ 4 ∧ 63 < 64 := by decide

theorem witness_InitialChainedStateClosedForm : (1 ≤ 1 ∧ 7 ≤ 7) ∧ (7 : Fin 8) ≠ 0 := by decide

/-! ### Witnesses: the commands -/

theorem witness_InitWholeCommand :
    (1 ≤ (1 : Byte).toNat ∧ (1 : Byte).toNat ≤ 64 ∧ (64 : Byte).toNat ≤ 64) ∧
    (1 ≤ (64 : Byte).toNat ∧ (64 : Byte).toNat ≤ 64 ∧ (0 : Byte).toNat ≤ 64) ∧
    ((0 : Byte).toNat = 0 ∨ (0 : Byte).toNat > 64 ∨ (0 : Byte).toNat > 64) ∧
    ((65 : Byte).toNat = 0 ∨ (65 : Byte).toNat > 64 ∨ (0 : Byte).toNat > 64) ∧
    ((64 : Byte).toNat = 0 ∨ (64 : Byte).toNat > 64 ∨ (65 : Byte).toNat > 64) := by decide

theorem witness_InitIgnoresPreviousContext :
    1 ≤ (64 : Byte).toNat ∧ (64 : Byte).toNat ≤ 64 ∧ (64 : Byte).toNat ≤ 64 ∧
    (finished 64).pending = (absorbing 3 abcBuffer).pending ∧
    (finished 64).responses = (absorbing 3 abcBuffer).responses ∧ (finished 64).phase ≠ (absorbing 3 abcBuffer).phase := by
  decide

theorem witness_OnlyInitRaisesInvalidParameter :
    (∃ t, exec (.init 65 0 0) State.reset = .next t) ∧ ∃ t, exec .final (absorbing 3 abcBuffer) = .next t :=
  ⟨⟨_, rfl⟩, ⟨_, rfl⟩⟩

theorem witness_AbsorbAppendsOrCompressesFirst :
    ((absorbing 127 (ramp.take 126)).phase = .active ∧ (absorbing 127 (ramp.take 126)).filled.toNat < 128) ∧
    (absorbing 128 ramp).phase = .active ∧ (absorbing 128 ramp).filled.toNat = 128 := ⟨⟨rfl, by decide⟩, rfl, rfl⟩

theorem witness_AbsorbPastTheBufferFaults :
    (absorbing 129 ramp).phase = .active ∧ 128 < (absorbing 129 ramp).filled.toNat := ⟨rfl, by decide⟩

theorem witness_AbsorbFrame :
    ((∃ t, exec (.absorb 0x63) (absorbing 2 (abcBuffer.take 2)) = .next t) ∧
      (absorbing 2 (abcBuffer.take 2)).filled.toNat ≠ 128 ∧
      1 ≠ (flushFull (absorbing 2 (abcBuffer.take 2))).filled.toNat) ∧
    (∃ t, exec (.absorb 0x80) (absorbing 128 ramp) = .next t) ∧ 127 ≠ (flushFull (absorbing 128 ramp)).filled.toNat :=
  ⟨⟨⟨_, rfl⟩, by decide, by decide⟩, ⟨_, rfl⟩, by decide⟩

theorem witness_FinalWholeCommand :
    ((absorbing 128 ramp).phase = .active ∧ (absorbing 128 ramp).buf.wf = true) ∧
    (absorbing 3 abcBuffer).phase = .active ∧ (absorbing 3 abcBuffer).buf.wf = true :=
  ⟨⟨rfl, ramp_wf⟩, rfl, by decide⟩

theorem witness_FinalFrame :
    (∃ t, exec .final (absorbing 3 abcBuffer) = .next t) ∧
    (2 < (absorbing 3 abcBuffer).filled.toNat ∨ 128 ≤ 2) ∧ (128 < (absorbing 3 abcBuffer).filled.toNat ∨ 128 ≤ 128) :=
  ⟨⟨_, rfl⟩, by decide, by decide⟩

theorem witness_RddigRespondsDigestByte :
    ((finished 64).phase = .done ∧ (63 : Byte).toNat < (finished 64).outlen.toNat ∧ (finished 64).outlen.toNat ≤ 64) ∧
    ((absorbing 3 abcBuffer).phase ≠ .done ∨ (absorbing 3 abcBuffer).outlen.toNat ≤ (0 : Byte).toNat) ∧
    ((finished 64).phase ≠ .done ∨ (finished 64).outlen.toNat ≤ (64 : Byte).toNat) := by decide

theorem witness_RddigWritesNothing :
    (∃ t, exec (.rddig 63) (finished 64) = .next t) ∧
    (finished 65).phase = .done ∧ (64 : Byte).toNat < (finished 65).outlen.toNat ∧ 64 ≤ (64 : Byte).toNat :=
  ⟨⟨_, rfl⟩, rfl, by decide, by decide⟩

theorem witness_DigestStandsUntilNextInit :
    (finished 64).phase = .done ∧ (∃ t, exec (.rddig 0) (finished 64) = .next t) ∧
    (∃ t, exec (.init 0 0 0) (finished 64) = .next t) ∧ ∃ t, exec (.init 32 0 0) (finished 64) = .next t :=
  ⟨rfl, ⟨_, rfl⟩, ⟨_, rfl⟩, ⟨_, rfl⟩⟩

theorem witness_RefusedCommandsHaveNoStep :
    ((presenting (.command { word := 0x50000, key := 0 }) State.reset).pending =
        .command { word := 0x50000, key := 0 } :: [] ∧
      decode { word := 0x50000, key := 0 } = .error .opcode) ∧
    State.reset.phase ≠ .active ∧ (finished 64).phase ≠ .active ∧ (absorbing 3 abcBuffer).phase ≠ .done ∧
    (finished 20).phase = .done ∧ (finished 20).outlen.toNat ≤ (20 : Byte).toNat := by
  refine ⟨⟨rfl, ?_⟩, ?_⟩
  · decide +kernel
  · decide

/-! ### Witnesses: whole-machine rules -/

theorem witness_AdmissionAndPhaseTable :
    Inv (absorbing 128 ramp) ∧ Inv (finished 64) ∧ ∃ t, exec .final (absorbing 128 ramp) = .next t :=
  ⟨inv_absorbing_full, inv_finished 64 (by decide) (by decide), ⟨_, rfl⟩⟩

theorem witness_OneResponsePerCommand :
    (∃ t, exec (.rddig 63) (finished 64) = .next t) ∧ ∃ t, exec (.init 0 65 0) (finished 64) = .next t :=
  ⟨⟨_, rfl⟩, ⟨_, rfl⟩⟩

/-- Two absorbing states with different chained states, buffers and counts. -/
theorem witness_NoDigestBeforeFinal :
    (absorbing 128 ramp).phase = .active ∧ ({ absorbing 3 abcBuffer with h := abcState } : State).phase = .active ∧
    (absorbing 128 ramp).responses = ({ absorbing 3 abcBuffer with h := abcState } : State).responses ∧
    (∃ t, exec .final (absorbing 128 ramp) = .next t) ∧
    ∃ t, exec .final { absorbing 3 abcBuffer with h := abcState } = .next t :=
  ⟨rfl, rfl, rfl, ⟨_, rfl⟩, ⟨_, rfl⟩⟩

theorem inv_presenting {s : State} (h : Inv s) (p : PortInput) : Inv (presenting p s) :=
  ⟨h.1, h.2, h.3, h.4, h.5, h.6⟩

theorem witness_InvariantKeptByEveryStep :
    Inv (presenting (.command { word := 0x30000, key := 0 }) (absorbing 128 ramp)) ∧
    ∃ t, step (presenting (.command { word := 0x30000, key := 0 }) (absorbing 128 ramp)) = .next t := by
  have h : decode { word := 0x30000, key := 0 } = .ok .final := by decide +kernel
  have hs : step (presenting (.command { word := 0x30000, key := 0 }) (absorbing 128 ramp)) =
      exec .final (absorbing 128 ramp) := by
    simp only [step, presenting, h]
    rfl
  exact ⟨inv_presenting inv_absorbing_full _, _, hs.trans rfl⟩

theorem witness_NoFaultFromInvariantStates :
    Inv (presenting (.command { word := 0x20080, key := 0 }) (absorbing 128 ramp)) := inv_presenting inv_absorbing_full _

/-- Two states with different stale bytes. -/
theorem witness_StaleBytesNeverMatter :
    Inv (absorbing 1 ((0, 0x61) :: ramp)) ∧ Inv (absorbing 1 [(0, 0x61)]) ∧
    SameButStale (absorbing 1 ((0, 0x61) :: ramp)) (absorbing 1 [(0, 0x61)]) ∧
    (absorbing 1 ((0, 0x61) :: ramp)).buf ≠ (absorbing 1 [(0, 0x61)]).buf := by
  refine ⟨inv_absorbing _ _ (by decide +kernel) (by decide) (by decide), inv_absorbing _ _ (by decide) (by decide) (by decide),
    ⟨rfl, rfl, rfl, rfl, rfl, rfl, rfl, rfl, fun j hj => ?_⟩, by decide +kernel⟩
  have h1 : (absorbing 1 ((0, 0x61) :: ramp)).filled.toNat = 1 := rfl
  have h0 : j = 0 := by omega
  rw [h0]
  rfl

/-- Two idle states that differ in every register that reset leaves unspecified. -/
theorem witness_UnspecifiedResetValuesNeverRead :
    SameButUnspecified State.reset
      { State.reset with h := abcState, t0 := 1, t1 := 2, buf := ramp, filled := 200, outlen := 99 } :=
  .inr ⟨rfl, rfl, rfl, rfl⟩

theorem witness_LegalSequencesExactly :
    Inv (absorbing 128 ramp) ∧ legalSeq .active 64 [.absorb 0, .init 0 0 0, .final, .rddig 63] = true ∧
    legalSeq .active 64 [.final, .absorb 0] = false :=
  ⟨inv_absorbing_full, by decide, by decide⟩

/-! ### Witnesses: whole hashes -/

/-- With chunks that cross a block boundary, an empty one among them. -/
theorem witness_ChunkingIsEquivalent :
    1 ≤ (64 : Byte).toNat ∧ (64 : Byte).toNat ≤ 64 ∧ ([0x6B] : List Byte).length ≤ 64 ∧
    [List.replicate 127 (0 : Byte), [], [1, 2]].flatten.length = 129 := by simp

theorem witness_CounterAndFillWhileAbsorbing :
    1 ≤ (64 : Byte).toNat ∧ (64 : Byte).toNat ≤ 64 ∧ (64 : Byte).toNat ≤ 64 ∧ (0 : Byte).toNat ≤ 64 := by decide

theorem witness_CarryIntoTheHighWord :
    1 ≤ (64 : Byte).toNat ∧ (64 : Byte).toNat ≤ 64 ∧ (List.replicate (2 ^ 64) (0 : Byte)).length = 2 ^ 64 :=
  ⟨by decide, by decide, List.length_replicate⟩

theorem witness_HashLeavesTheStatedChainedState :
    1 ≤ (1 : Byte).toNat ∧ (1 : Byte).toNat ≤ 64 ∧ (List.replicate 64 (0 : Byte)).length ≤ 64 := by decide

theorem witness_DigestReadsTheSerializedState : (finished 64).phase = .done ∧ (finished 64).outlen.toNat ≤ 64 := by decide

theorem witness_HashRespondsWithTheDigest :
    1 ≤ (64 : Byte).toNat ∧ (64 : Byte).toNat ≤ 64 ∧ ([0x6B] : List Byte).length ≤ 64 := by decide

theorem witness_HashPropagatesInvalidParameter :
    ((List.replicate 255 (0 : Byte)).length ≤ 255 ∧
      ((64 : Byte).toNat = 0 ∨ (64 : Byte).toNat > 64 ∨ (List.replicate 255 (0 : Byte)).length > 64)) ∧
    ([] : List Byte).length ≤ 255 ∧ ((0 : Byte).toNat = 0 ∨ (0 : Byte).toNat > 64 ∨ ([] : List Byte).length > 64) ∧
    ((65 : Byte).toNat = 0 ∨ (65 : Byte).toNat > 64 ∨ ([] : List Byte).length > 64) := by
  refine ⟨⟨?_, .inr (.inr ?_)⟩, ?_⟩
  · rw [List.length_replicate]
  · rw [List.length_replicate]
    decide
  · decide

end Sys2Proof.Tests
end

section
/-! SUPPORT. What each command answers, without unfolding the machine: one equation per command, the whole effect of ABSORB and
FINAL under names of their own beside `initDone`, and what the completion of a command says of the responses. -/

namespace Sys2Proof.Machine

/-! ### The arms of `exec` -/

@[simp] theorem exec_init (outlen keylen : Byte) (key : KeyOperand) (s : State) :
    exec (.init outlen keylen key) s = execInit outlen keylen key s := rfl

@[simp] theorem exec_absorb (b : Byte) (s : State) : exec (.absorb b) s = execAbsorb b s := rfl

@[simp] theorem exec_final (s : State) : exec .final s = execFinal s := rfl

@[simp] theorem exec_rddig (idx : Byte) (s : State) : exec (.rddig idx) s = execRddig idx s := rfl

theorem execSeq_cons_next {i : Instr} {is : List Instr} {s t : State} (h : exec i s = .next t) :
    execSeq (i :: is) s = execSeq is t := by
  rw [execSeq, h]

/-! ### The states the commands leave -/

/-- The state a completed ABSORB leaves: the flush, the byte at index `filled`, one more byte counted (R120, R121). -/
def absorbDone (b : Byte) (s : State) : State :=
  respond .ok 0 { flushFull s with
    buf := s.buf.write (flushFull s).filled.toNat b
    filled := (flushFull s).filled + 1 }

/-- The state a completed FINAL leaves (R171). -/
def finalDone (s : State) : State :=
  respond .ok 0 { compress true (padTail (ctrAdd s.filled s)) with filled := 0, phase := .done }

theorem execAbsorb_active {s : State} (b : Byte) (hp : s.phase = .active) (hf : s.filled.toNat ≤ 128) :
    execAbsorb b s = .next (absorbDone b s) := by
  rw [execAbsorb, inPhase_same hp, absorbByte_eq b hf]
  rfl

theorem execAbsorb_outside {s : State} (b : Byte) (hp : s.phase = .active) (hf : 128 < s.filled.toNat) :
    execAbsorb b s = .fault .bufferIndex := by
  rw [execAbsorb, inPhase_same hp, absorbByte_outside b hf]

theorem execFinal_active {s : State} (hp : s.phase = .active) : execFinal s = .next (finalDone s) :=
  inPhase_same hp

/-- Every index below 64 names a digest byte (R174). -/
theorem digestByte_of_lt (h : Vector Word 8) {idx : Nat} (hi : idx < 64) : ∃ b, digestByte h idx = some b := by
  have hw : idx >>> 3 < 8 := by
    rw [Nat.shiftRight_eq_div_pow]
    omega
  rw [digestByte, Vector.getElem?_eq_getElem hw]
  exact ⟨_, rfl⟩

theorem execRddig_done {idx : Byte} {s : State} (hp : s.phase = .done) (hi : idx.toNat < s.outlen.toNat)
    (h64 : idx.toNat < 64) : ∃ b, execRddig idx s = .next (respond .ok b s) := by
  obtain ⟨b, hb⟩ := digestByte_of_lt s.h h64
  exact ⟨b, by rw [execRddig, inPhase_same hp, if_pos hi, hb]⟩

/-! ### Their fields -/

@[simp] theorem initDone_phase (o k : Byte) (key : KeyOperand) (s : State) : (initDone o k key s).phase = .active := rfl

@[simp] theorem initDone_filled (o k : Byte) (key : KeyOperand) (s : State) :
    (initDone o k key s).filled = if 0 < k.toNat then 128 else 0 := rfl

@[simp] theorem initDone_outlen (o k : Byte) (key : KeyOperand) (s : State) : (initDone o k key s).outlen = o := rfl

@[simp] theorem initDone_counter (o k : Byte) (key : KeyOperand) (s : State) : (initDone o k key s).counter = 0 := by
  simp [State.counter, initDone]

@[simp] theorem initDone_buf (o k : Byte) (key : KeyOperand) (s : State) :
    (initDone o k key s).buf = Memory.zeroed.writeBytes 0 (keyBytes k key) := rfl

@[simp] theorem initDone_responses (o k : Byte) (key : KeyOperand) (s : State) :
    (initDone o k key s).responses = s.responses ++ [{ code := .ok, data := 0 }] := rfl

theorem initDone_filled_le (o k : Byte) (key : KeyOperand) (s : State) : (initDone o k key s).filled.toNat ≤ 128 := by
  rw [initDone_filled]
  split <;> decide

@[simp] theorem absorbDone_t0 (b : Byte) (s : State) : (absorbDone b s).t0 = (flushFull s).t0 := rfl

@[simp] theorem absorbDone_buf (b : Byte) (s : State) :
    (absorbDone b s).buf = s.buf.write (flushFull s).filled.toNat b := rfl

@[simp] theorem absorbDone_phase (b : Byte) (s : State) : (absorbDone b s).phase = s.phase := flushFull_phase s

@[simp] theorem absorbDone_outlen (b : Byte) (s : State) : (absorbDone b s).outlen = s.outlen := flushFull_outlen s

@[simp] theorem absorbDone_counter (b : Byte) (s : State) : (absorbDone b s).counter = (flushFull s).counter := rfl

@[simp] theorem absorbDone_responses (b : Byte) (s : State) :
    (absorbDone b s).responses = s.responses ++ [{ code := .ok, data := 0 }] := by
  rw [absorbDone, respond_responses, flushFull_responses]

theorem absorbDone_filled_toNat {s : State} (b : Byte) (hf : s.filled.toNat ≤ 128) :
    (absorbDone b s).filled.toNat = (flushFull s).filled.toNat + 1 :=
  filled_succ_toNat (flushFull_filled_lt hf)

@[simp] theorem finalDone_phase (s : State) : (finalDone s).phase = .done := rfl

@[simp] theorem finalDone_filled (s : State) : (finalDone s).filled = 0 := rfl

@[simp] theorem finalDone_outlen (s : State) : (finalDone s).outlen = s.outlen := rfl

@[simp] theorem finalDone_buf (s : State) : (finalDone s).buf = clearTail s.buf s.filled := rfl

@[simp] theorem finalDone_responses (s : State) :
    (finalDone s).responses = s.responses ++ [{ code := .ok, data := 0 }] := rfl

/-! ### Everything a command can do -/

/-- A command that completes leaves one of these states, each under the condition that the rule of the command gives. -/
theorem exec_next {i : Instr} {s t : State} (h : exec i s = .next t) :
    (∃ o k key, i = .init o k key ∧ paramsInvalid o k = true ∧ t = raiseInvalidParameter s) ∨
    (∃ o k key, i = .init o k key ∧ paramsInvalid o k = false ∧ t = initDone o k key s) ∨
    (∃ b, i = .absorb b ∧ s.phase = .active ∧ s.filled.toNat ≤ 128 ∧ t = absorbDone b s) ∨
    (i = .final ∧ s.phase = .active ∧ t = finalDone s) ∨
    ∃ idx b, i = .rddig idx ∧ s.phase = .done ∧ idx.toNat < s.outlen.toNat ∧ t = respond .ok b s := by
  cases i with
  | init o k key =>
    rw [exec_init] at h
    obtain ⟨hv, ht⟩ | ⟨hv, ht⟩ := execInit_next h
    · exact .inl ⟨o, k, key, rfl, hv, ht⟩
    · exact .inr (.inl ⟨o, k, key, rfl, hv, ht⟩)
  | absorb b =>
    rw [exec_absorb] at h
    obtain ⟨hp, hf, ht⟩ := execAbsorb_next h
    exact .inr (.inr (.inl ⟨b, rfl, hp, hf, ht⟩))
  | final =>
    rw [exec_final] at h
    obtain ⟨hp, ht⟩ := execFinal_next h
    exact .inr (.inr (.inr (.inl ⟨rfl, hp, ht⟩)))
  | rddig idx =>
    rw [exec_rddig] at h
    obtain ⟨hp, hi, b, -, ht⟩ := execRddig_next h
    exact .inr (.inr (.inr (.inr ⟨idx, b, rfl, hp, hi, ht⟩)))

end Sys2Proof.Machine
end

section
/-! SUPPORT. The counter as one number: `CTR_ADD` is addition modulo 2^128 (R123), and what a flush adds. -/

namespace Sys2Proof.Machine

theorem ctrAdd_counter (n : Byte) (s : State) : (ctrAdd n s).counter = (s.counter + n.toNat) % 2 ^ 128 := by
  have h0 := s.t0.isLt
  have h1 := s.t1.isLt
  have hn := n.isLt
  have hlow : (s.t0 + n.setWidth 64).toNat = (s.t0.toNat + n.toNat) % 2 ^ 64 := by
    rw [BitVec.toNat_add, BitVec.toNat_setWidth_of_le (by decide)]
  have hcarry : counterCarry (s.t0 + n.setWidth 64) (n.setWidth 64) = true ↔
      (s.t0.toNat + n.toNat) % 2 ^ 64 < n.toNat := by
    rw [counterCarry, decide_eq_true_iff, BitVec.lt_def, hlow, BitVec.toNat_setWidth_of_le (by decide)]
  rw [State.counter, State.counter, ctrAdd_t0, ctrAdd_t1, hlow]
  split
  · rename_i hc
    have := hcarry.mp hc
    rw [BitVec.toNat_add, show (1 : Word).toNat = 1 from rfl]
    omega
  · rename_i hc
    have := mt hcarry.mpr hc
    omega

theorem flushFull_counter_of_full {s : State} (h : s.filled = 128) :
    (flushFull s).counter = (s.counter + 128) % 2 ^ 128 := by
  rw [flushFull_of_full h]
  exact ctrAdd_counter 128 s

/-- A flush leaves a counter of whole blocks a counter of whole blocks. -/
theorem flushFull_wholeBlocks {s : State} (h : s.t0.toNat % 128 = 0) : (flushFull s).t0.toNat % 128 = 0 := by
  by_cases hf : s.filled = 128
  · have ht : (flushFull s).t0 = s.t0 + 128 := by
      rw [flushFull_of_full hf]
      rfl
    rw [ht, BitVec.toNat_add, show (128 : Word).toNat = 128 from rfl]
    omega
  · rwa [flushFull_of_not_full hf]

end Sys2Proof.Machine
end

section
/-! SUPPORT. The invariant `Inv`: it holds after reset, and every update a step can make keeps it. -/

namespace Sys2Proof.Machine

/-- In IDLE the invariant asks for nothing but the canonical buffer. -/
theorem inv_of_idle {s : State} (hp : s.phase = .idle) (hb : s.buf.wf = true) : Inv s where
  bufCanonical := hb
  filledRange h := absurd hp h
  outlenRange h := absurd hp h
  wholeBlocks h := by simp [hp] at h
  emptyIsFresh h := by simp [hp] at h
  doneIsEmpty h := by simp [hp] at h

theorem inv_reset : Inv State.reset := inv_of_idle rfl rfl

theorem inv_applyReset (s : State) : Inv (applyReset s) := inv_of_idle rfl rfl

/-- The invariant speaks of the context only, so a response keeps it. -/
theorem inv_respond {s : State} (h : Inv s) (c : RspCode) (d : Byte) : Inv (respond c d s) :=
  ⟨h.bufCanonical, h.filledRange, h.outlenRange, h.wholeBlocks, h.emptyIsFresh, h.doneIsEmpty⟩

/-- The invariant speaks of the context only, so taking an input from the port keeps it. -/
theorem inv_takeInput {s : State} (h : Inv s) (rest : List PortInput) : Inv (takeInput rest s) :=
  ⟨h.bufCanonical, h.filledRange, h.outlenRange, h.wholeBlocks, h.emptyIsFresh, h.doneIsEmpty⟩

/-- An INIT that leaves `filled` at zero had no key. -/
theorem keylen_eq_zero_of_initDone_filled {o k : Byte} {key : KeyOperand} {s : State}
    (h : (initDone o k key s).filled = 0) : k = 0 := by
  by_cases hk : 0 < k.toNat
  · rw [initDone_filled, if_pos hk] at h
    exact absurd h (by decide)
  · exact BitVec.eq_of_toNat_eq (Nat.eq_zero_of_not_pos hk)

/-- A successful INIT sets the invariant up from any state. -/
theorem inv_initDone {o k : Byte} (key : KeyOperand) (s : State) (hv : paramsInvalid o k = false) :
    Inv (initDone o k key s) := by
  obtain ⟨ho1, ho64, hk64⟩ := paramsValid_iff.mp hv
  refine
    { bufCanonical := ?_
      filledRange := fun _ => initDone_filled_le o k key s
      outlenRange := fun _ => ⟨ho1, ho64⟩
      wholeBlocks := fun _ => rfl
      emptyIsFresh := fun _ hf => ?_
      doneIsEmpty := fun hp => nomatch hp }
  · exact Memory.wf_writeBytes Memory.wf_zeroed (by rw [keyBytes_length]; omega)
  · obtain rfl := keylen_eq_zero_of_initDone_filled hf
    exact ⟨rfl, rfl, rfl, rfl⟩

/-- ABSORB keeps the invariant; the byte it appends makes `filled` at least 1, so freshness is no longer asked for. -/
theorem inv_absorbDone {s : State} (h : Inv s) (b : Byte) (hp : s.phase = .active) : Inv (absorbDone b s) := by
  have hctx : s.phase ≠ .idle := by simp [hp]
  have hroom := flushFull_filled_lt (h.filledRange hctx)
  have hfilled := absorbDone_filled_toNat b (h.filledRange hctx)
  refine
    { bufCanonical := Memory.wf_write h.bufCanonical hroom
      filledRange := fun _ => by omega
      outlenRange := fun _ => by rw [absorbDone_outlen]; exact h.outlenRange hctx
      wholeBlocks := fun _ => flushFull_wholeBlocks (h.wholeBlocks hp)
      emptyIsFresh := fun _ hf => ?_
      doneIsEmpty := fun hd => ?_ }
  · rw [hf] at hfilled
    simp at hfilled
  · simp [hp] at hd

/-- FINAL keeps the invariant: padding keeps the canonical form, and `filled` is emptied. -/
theorem inv_finalDone {s : State} (h : Inv s) (hp : s.phase = .active) : Inv (finalDone s) where
  bufCanonical := clearTail_wf h.bufCanonical
  filledRange _ := Nat.zero_le 128
  outlenRange _ := h.outlenRange (by simp [hp])
  wholeBlocks hd := nomatch hd
  emptyIsFresh hd := nomatch hd
  doneIsEmpty _ := rfl

theorem exec_keeps_inv {i : Instr} {s t : State} (h : Inv s) (he : exec i s = .next t) : Inv t := by
  obtain ⟨o, k, key, -, -, rfl⟩ | ⟨o, k, key, -, hv, rfl⟩ | ⟨b, -, hp, -, rfl⟩ | ⟨-, hp, rfl⟩ |
    ⟨idx, b, -, -, -, rfl⟩ := exec_next he
  · exact inv_respond h .invalidParameter 0
  · exact inv_initDone key s hv
  · exact inv_absorbDone h b hp
  · exact inv_finalDone h hp
  · exact inv_respond h .ok b

theorem step_keeps_inv {s t : State} (h : Inv s) (hs : step s = .next t) : Inv t := by
  obtain ⟨-, h0⟩ | ⟨rest, -, h0⟩ | ⟨c, rest, -, ⟨why, -, h0⟩ | ⟨i, -, h0⟩⟩ := step_cases s
  · cases h0.symm.trans hs
    exact h
  · cases h0.symm.trans hs
    exact inv_applyReset _
  · cases h0.symm.trans hs
  · exact exec_keeps_inv (inv_takeInput h rest) (h0.symm.trans hs)

/-- Settles O42: each thing a step can do (`step_cases`, `exec_next`) keeps the invariant. -/
theorem invariantKeptByEveryStep : Obligations.InvariantKeptByEveryStep := fun _ _ => step_keeps_inv

/-- Settles O41: reset leaves IDLE with an empty buffer list. -/
theorem invariantAtReset : Obligations.InvariantAtReset := inv_reset

end Sys2Proof.Machine
end

section
/-! SUPPORT. Admission, the phase table, and what stands in DONE (R27, R38); responses outside DONE (R28, R177). -/

namespace Sys2Proof.Machine

/-- Settles O36: ABSORB and FINAL do not complete in DONE; a failing INIT and RDDIG only respond; an INIT with legal parameters
opens a new context. -/
theorem digestStandsUntilNextInit : Obligations.DigestStandsUntilNextInit := by
  intro i s t hd h
  obtain ⟨o, k, key, -, -, rfl⟩ | ⟨o, k, key, hi, hv, rfl⟩ | ⟨b, -, hp, -, -⟩ | ⟨-, hp, -⟩ |
    ⟨idx, b, -, -, -, rfl⟩ := exec_next h
  · exact .inl ⟨hd, rfl, rfl⟩
  · obtain ⟨ho1, ho64, hk64⟩ := paramsValid_iff.mp hv
    exact .inr ⟨o, k, key, hi, ho1, ho64, hk64, rfl⟩
  · simp [hd] at hp
  · simp [hd] at hp
  · exact .inl ⟨hd, rfl, rfl⟩

theorem admitted_of_exec_next {i : Instr} {s t : State} (h : exec i s = .next t) : Admitted i s := by
  obtain ⟨o, k, key, rfl, -, -⟩ | ⟨o, k, key, rfl, -, -⟩ | ⟨b, rfl, hp, -, -⟩ | ⟨rfl, hp, -⟩ |
    ⟨idx, b, rfl, hp, hi, -⟩ := exec_next h
  · trivial
  · trivial
  · exact hp
  · exact hp
  · exact ⟨hp, hi⟩

/-- INIT is legal in every phase, and completes whatever its parameters are (R108). -/
theorem execInit_completes (o k : Byte) (key : KeyOperand) (s : State) : Completes (execInit o k key s) := by
  cases hv : paramsInvalid o k with
  | true => exact ⟨_, execInit_invalid key s hv⟩
  | false => exact ⟨_, execInit_valid key s hv⟩

/-- An admitted command completes where the invariant keeps its indices in range. -/
theorem completes_of_admitted {i : Instr} {s : State} (h : Inv s) (ha : Admitted i s) : Completes (exec i s) := by
  cases i with
  | init o k key => exact execInit_completes o k key s
  | absorb b =>
    have hp : s.phase = .active := ha
    exact ⟨_, execAbsorb_active b hp (h.filledRange (by simp [hp]))⟩
  | final => exact ⟨_, execFinal_active ha⟩
  | rddig idx =>
    obtain ⟨hp, hi⟩ := ha
    obtain ⟨-, h64⟩ := h.outlenRange (by simp [hp])
    obtain ⟨b, hb⟩ := execRddig_done hp hi (by omega)
    exact ⟨_, hb⟩

theorem exec_next_phase {i : Instr} {s t : State} (h : exec i s = .next t) : t.phase = phaseAfter i s.phase := by
  obtain ⟨o, k, key, rfl, hv, rfl⟩ | ⟨o, k, key, rfl, hv, rfl⟩ | ⟨b, rfl, hp, -, rfl⟩ | ⟨rfl, -, rfl⟩ |
    ⟨idx, b, rfl, hp, -, rfl⟩ := exec_next h
  · simp [phaseAfter, hv]
  · simp [phaseAfter, hv]
  · simp [phaseAfter, hp]
  · rfl
  · simp [phaseAfter, hp]

/-- Settles O38: a completed command was admitted, and under the invariant an admitted one meets no fault; the phases are read
off the states that the commands leave. -/
theorem admissionAndPhaseTable : Obligations.AdmissionAndPhaseTable :=
  ⟨fun _ _ h => ⟨fun ⟨_, ht⟩ => admitted_of_exec_next ht, completes_of_admitted h⟩, fun _ _ _ => exec_next_phase⟩

/-- The response of a command that completes outside DONE, which the command alone decides: INIT's code, and no data. -/
def plainResponse : Instr → Response
  | .init outlen keylen _ =>
    { code := if paramsInvalid outlen keylen then .invalidParameter else .ok, data := 0 }
  | .absorb _ => { code := .ok, data := 0 }
  | .final => { code := .ok, data := 0 }
  | .rddig _ => { code := .ok, data := 0 }

theorem exec_next_responses_of_not_done {i : Instr} {s t : State} (hd : s.phase ≠ .done) (h : exec i s = .next t) :
    t.responses = s.responses ++ [plainResponse i] := by
  obtain ⟨o, k, key, rfl, hv, rfl⟩ | ⟨o, k, key, rfl, hv, rfl⟩ | ⟨b, rfl, -, -, rfl⟩ | ⟨rfl, -, rfl⟩ |
    ⟨idx, b, -, hp, -, -⟩ := exec_next h
  · simp [plainResponse, hv]
  · simp [plainResponse, hv]
  · exact absorbDone_responses b s
  · exact finalDone_responses s
  · exact absurd hp hd

/-- Settles O40: outside DONE the command alone decides the response. -/
theorem noDigestBeforeFinal : Obligations.NoDigestBeforeFinal := by
  intro i s s' t t' hp hp' hr h h'
  rw [exec_next_responses_of_not_done (by simp [hp]) h, exec_next_responses_of_not_done (by simp [hp']) h', hr]

/-- Settles O30: the append has no address in the buffer. -/
theorem absorbPastTheBufferFaults : Obligations.AbsorbPastTheBufferFaults :=
  fun b _ hp hf => execAbsorb_outside b hp hf

end Sys2Proof.Machine
end

section
/-! SUPPORT. Counter and `filled` along a message (R37, R125): they are functions of the number of bytes absorbed since INIT, the
key block counted as 128 bytes. -/

namespace Sys2Proof.Machine

/-- A context in which `n` bytes have gone into the hash: all but the last 1 to 128 of them are counted and compressed, and
those wait in the buffer; with `n = 0` nothing waits. -/
structure Absorbed (n : Nat) (s : State) : Prop where
  phase : s.phase = .active
  filled : s.filled.toNat = n - 128 * ((n - 1) / 128)
  counter : s.counter = 128 * ((n - 1) / 128) % 2 ^ 128

theorem Absorbed.filled_le {n : Nat} {s : State} (h : Absorbed n s) : s.filled.toNat ≤ 128 := by
  have := h.filled
  omega

theorem Absorbed.eq_zero_of_filled {n : Nat} {s : State} (h : Absorbed n s) (hf : s.filled.toNat = 0) : n = 0 := by
  have := h.filled
  omega

theorem Absorbed.counter_add_filled {n : Nat} {s : State} (h : Absorbed n s) :
    (s.counter + s.filled.toNat) % 2 ^ 128 = n % 2 ^ 128 := by
  rw [h.counter, h.filled, Nat.mod_add_mod]
  congr 1
  omega

/-- The context right after INIT counts as having absorbed its key block. -/
theorem absorbed_initDone (o k : Byte) (key : KeyOperand) (s : State) :
    Absorbed (if 0 < k.toNat then 128 else 0) (initDone o k key s) := by
  refine ⟨rfl, ?_, ?_⟩
  · rw [initDone_filled]
    split <;> rfl
  · rw [initDone_counter]
    split <;> omega

/-- One more byte: a full buffer is counted first, and only then, so a full block waits for the byte that pushes it out. -/
theorem absorbed_absorbDone {n : Nat} {s : State} (h : Absorbed n s) (b : Byte) : Absorbed (n + 1) (absorbDone b s) := by
  have hn := h.filled
  have hc := h.counter
  refine ⟨(absorbDone_phase b s).trans h.phase, ?_, ?_⟩
  · rw [absorbDone_filled_toNat b h.filled_le]
    by_cases hf : s.filled = 128
    · rw [flushFull_of_full hf]
      rw [filled_eq_128] at hf
      simp only [show (0 : Byte).toNat = 0 from rfl]
      omega
    · rw [flushFull_of_not_full hf]
      rw [filled_eq_128] at hf
      omega
  · rw [absorbDone_counter]
    by_cases hf : s.filled = 128
    · rw [flushFull_counter_of_full hf, hc, Nat.mod_add_mod]
      rw [filled_eq_128] at hf
      congr 1
      omega
    · rw [flushFull_of_not_full hf, hc]
      rw [filled_eq_128] at hf
      congr 2
      omega

theorem absorbed_update {n : Nat} {s : State} (h : Absorbed n s) (d : List Byte) :
    ∃ t, execSeq (update d) s = .next t ∧ Absorbed (n + d.length) t := by
  induction d generalizing n s with
  | nil => exact ⟨s, rfl, h⟩
  | cons b d ih =>
    have hb : exec (.absorb b) s = .next (absorbDone b s) := by
      rw [exec_absorb, execAbsorb_active b h.phase h.filled_le]
    obtain ⟨t, ht, hat⟩ := ih (absorbed_absorbDone h b)
    refine ⟨t, (execSeq_cons_next hb).trans ht, ?_⟩
    rwa [List.length_cons, ← Nat.add_assoc, Nat.add_right_comm]

/-- Settles O48, by induction on the message (`absorbed_update`) from the context that INIT leaves. -/
theorem counterAndFillWhileAbsorbing : Obligations.CounterAndFillWhileAbsorbing := by
  intro o k key d s ho1 ho64 hk64
  have hinit : exec (.init o k key) s = .next (initDone o k key s) := by
    rw [exec_init, execInit_valid key s (paramsValid_iff.mpr ⟨ho1, ho64, hk64⟩)]
  obtain ⟨t, ht, ha⟩ := absorbed_update (absorbed_initDone o k key s) d
  refine ⟨t, (execSeq_cons_next hinit).trans ht, ha.phase, ha.filled_le, ha.counter_add_filled, ha.counter, fun hf => ?_⟩
  have hzero := ha.eq_zero_of_filled hf
  split at hzero <;> omega

end Sys2Proof.Machine
end

section
/-! SUPPORT. The IV words as square roots (R31). -/

namespace Sys2Proof.Machine

/-- The integer parts of the square roots of the first eight primes. -/
def rootIntegerParts : Vector Nat 8 := #v[1, 1, 2, 2, 3, 3, 4, 4]

/-- `rootIntegerParts[i] + iv[i] / 2^64` is the square root of prime `i` cut off after 64 binary places: scaled by 2^64, its
square is at most the scaled prime, and that of its successor is above it. -/
theorem iv_root_bounds : ∀ i : Fin 8,
    (rootIntegerParts[i] * 2 ^ 64 + (iv[i]).toNat) * (rootIntegerParts[i] * 2 ^ 64 + (iv[i]).toNat) ≤
      #v[2, 3, 5, 7, 11, 13, 17, 19][i] * 2 ^ 128 ∧
    #v[2, 3, 5, 7, 11, 13, 17, 19][i] * 2 ^ 128 <
      (rootIntegerParts[i] * 2 ^ 64 + (iv[i]).toNat + 1) * (rootIntegerParts[i] * 2 ^ 64 + (iv[i]).toNat + 1) := by
  decide

/-- Settles O13: the integer square root is the one whose square and whose successor's square bound the scaled prime, and its
low 64 bits are the word. -/
theorem ivFromSquareRootsOfPrimes : Obligations.IvFromSquareRootsOfPrimes := by
  intro i
  rw [← Nat.eq_sqrt.mpr (iv_root_bounds i), Nat.mul_add_mod_self_right, Nat.mod_eq_of_lt (iv[i]).isLt]

end Sys2Proof.Machine
end

section
/-! SUPPORT. Two states side by side: a command decides alike in states that agree in the registers it decides on, and what it
leaves is then related as the rules for the leaving states say. -/

namespace Sys2Proof.Machine

/-- The two states agree in what commands decide on: the phase (R27), `filled` in ACTIVE (R56), and in DONE what RDDIG reads
(R175). -/
structure SameDecisions (s s' : State) : Prop where
  phase : s.phase = s'.phase
  filled : s.phase = .active → s.filled = s'.filled
  outlen : s.phase = .done → s.outlen = s'.outlen
  h : s.phase = .done → s.h = s'.h

section
variable {R : State → State → Prop} {o : Host.Outcome State Fault Refusal}

theorem OutcomesRelated.of_next {s : State} (h : OutcomesRelated R (.next s) o) : ∃ s', o = .next s' ∧ R s s' := by
  cases o with
  | next s' => exact ⟨s', rfl, h⟩
  | fault f => exact h.elim
  | refused r => exact h.elim

theorem OutcomesRelated.of_fault {f : Fault} (h : OutcomesRelated R (.fault f) o) : o = .fault f := by
  cases o with
  | next s => exact h.elim
  | fault g => exact congrArg _ (Eq.symm h)
  | refused r => exact h.elim

theorem OutcomesRelated.of_refused {r : Refusal} (h : OutcomesRelated R (.refused r) o) : o = .refused r := by
  cases o with
  | next s => exact h.elim
  | fault f => exact h.elim
  | refused q => exact congrArg _ (Eq.symm h)

end

theorem inPhase_related {R : State → State → Prop} {p : Phase} {s s' : State} {o o' : Host.Outcome State Fault Refusal}
    (hp : s.phase = s'.phase) (ho : s.phase = p → OutcomesRelated R o o') :
    OutcomesRelated R (inPhase p s o) (inPhase p s' o') := by
  by_cases h : s.phase = p
  · rw [inPhase_same h, inPhase_same (hp.symm.trans h)]
    exact ho h
  · rw [inPhase_other h, inPhase_other (hp ▸ h)]
    exact rfl

section
variable {R : State → State → Prop} {s s' : State}

theorem execInit_related (o k : Byte) (key : KeyOperand) (hrespond : ∀ c d, R (respond c d s) (respond c d s'))
    (hinit : R (initDone o k key s) (initDone o k key s')) :
    OutcomesRelated R (execInit o k key s) (execInit o k key s') := by
  cases hv : paramsInvalid o k with
  | true =>
    rw [execInit_invalid key s hv, execInit_invalid key s' hv]
    exact hrespond .invalidParameter 0
  | false =>
    rw [execInit_valid key s hv, execInit_valid key s' hv]
    exact hinit

theorem execAbsorb_related (b : Byte) (hd : SameDecisions s s')
    (habsorb : s.phase = .active → s.filled.toNat ≤ 128 → R (absorbDone b s) (absorbDone b s')) :
    OutcomesRelated R (execAbsorb b s) (execAbsorb b s') := by
  by_cases hp : s.phase = .active
  · have hp' : s'.phase = .active := hd.phase.symm.trans hp
    have hff : s.filled = s'.filled := hd.filled hp
    by_cases hf : s.filled.toNat ≤ 128
    · rw [execAbsorb_active b hp hf, execAbsorb_active b hp' (hff ▸ hf)]
      exact habsorb hp hf
    · have hout : 128 < s.filled.toNat := Nat.lt_of_not_le hf
      rw [execAbsorb_outside b hp hout, execAbsorb_outside b hp' (hff ▸ hout)]
      exact rfl
  · exact inPhase_related hd.phase fun h => absurd h hp

theorem execRddig_related (idx : Byte) (hd : SameDecisions s s')
    (hrespond : ∀ c d, R (respond c d s) (respond c d s')) :
    OutcomesRelated R (execRddig idx s) (execRddig idx s') := by
  refine inPhase_related hd.phase fun hp => ?_
  rw [← hd.outlen hp, ← hd.h hp]
  by_cases hi : idx.toNat < s.outlen.toNat
  · rw [if_pos hi, if_pos hi]
    cases digestByte s.h idx.toNat with
    | some b => exact hrespond .ok b
    | none => exact rfl
  · rw [if_neg hi, if_neg hi]
    exact rfl

/-- Two states that decide alike stop for the same reason or go on related, when the states that completed commands leave are
related. -/
theorem exec_related (i : Instr) (hd : SameDecisions s s') (hrespond : ∀ c d, R (respond c d s) (respond c d s'))
    (hinit : ∀ o k key, R (initDone o k key s) (initDone o k key s'))
    (habsorb : ∀ b, s.phase = .active → s.filled.toNat ≤ 128 → R (absorbDone b s) (absorbDone b s'))
    (hfinal : s.phase = .active → R (finalDone s) (finalDone s')) :
    OutcomesRelated R (exec i s) (exec i s') := by
  cases i with
  | init o k key => exact execInit_related o k key hrespond (hinit o k key)
  | absorb b => exact execAbsorb_related b hd (habsorb b)
  | final => exact inPhase_related hd.phase hfinal
  | rddig idx => exact execRddig_related idx hd hrespond

end

/-- A successful INIT overwrites the whole context, so what it leaves depends on the port's two lists only (R109). -/
theorem initDone_congr (o k : Byte) (key : KeyOperand) {s s' : State} (hp : s.pending = s'.pending)
    (hr : s.responses = s'.responses) : initDone o k key s = initDone o k key s' := by
  simp only [initDone, initContext, respond, hp, hr]

end Sys2Proof.Machine
end

section
/-! SUPPORT. Stale bytes of the buffer (R62): a compression in ABSORB runs on a full buffer, which has none, and FINAL clears
them before its own. -/

namespace Sys2Proof.Machine

theorem SameButStale.refl (s : State) : SameButStale s s :=
  ⟨rfl, rfl, rfl, rfl, rfl, rfl, rfl, rfl, fun _ _ => rfl⟩

section
variable {s s' : State} (h : SameButStale s s')
include h

theorem SameButStale.sameDecisions : SameDecisions s s' := ⟨h.phase, fun _ => h.filled, fun _ => h.outlen, fun _ => h.h⟩

theorem SameButStale.respond (c : RspCode) (d : Byte) : SameButStale (respond c d s) (respond c d s') :=
  { h with responses := by rw [respond_responses, respond_responses, h.responses] }

theorem SameButStale.initDone (o k : Byte) (key : KeyOperand) :
    SameButStale (initDone o k key s) (initDone o k key s') := by
  rw [initDone_congr o k key h.pending h.responses]
  exact SameButStale.refl _

/-- The compression of a full buffer reads valid bytes only. -/
theorem SameButStale.flushFull : SameButStale (flushFull s) (flushFull s') := by
  by_cases hf : s.filled = 128
  · have hm : messageWords s.buf = messageWords s'.buf :=
      messageWords_congr fun a ha => h.valid a (by rwa [filled_eq_128.mp hf])
    rw [flushFull_of_full hf, flushFull_of_full (h.filled ▸ hf)]
    exact
      { h with
        h := by simp only [compress_h, ctrAdd_h, ctrAdd_t0, ctrAdd_t1, ctrAdd_buf, h.h, h.t0, h.t1, hm]
        t0 := by simp only [compress_t0, ctrAdd_t0, h.t0]
        t1 := by simp only [compress_t1, ctrAdd_t1, h.t0, h.t1]
        filled := rfl
        valid := fun j hj => absurd hj (Nat.not_lt_zero j) }
  · rw [flushFull_of_not_full hf, flushFull_of_not_full (h.filled ▸ hf)]
    exact h

/-- ABSORB appends the same byte at the same index, which becomes a valid one. -/
theorem SameButStale.absorbDone (b : Byte) (hb : s.buf.wf = true) (hb' : s'.buf.wf = true)
    (hf : s.filled.toNat ≤ 128) : SameButStale (absorbDone b s) (absorbDone b s') := by
  have hflush := h.flushFull
  refine
    { hflush with
      filled := congrArg (· + 1) hflush.filled
      responses := by rw [absorbDone_responses, absorbDone_responses, h.responses]
      valid := fun j hj => ?_ }
  rw [absorbDone_filled_toNat b hf] at hj
  rw [absorbDone_buf, absorbDone_buf, Memory.read_write hb, Memory.read_write hb', ← hflush.filled]
  by_cases hj' : j = (Machine.flushFull s).filled.toNat
  · rw [if_pos hj', if_pos hj']
  · rw [if_neg hj', if_neg hj']
    simpa only [flushFull_buf] using hflush.valid j (by omega)

/-- The zero padding of FINAL leaves no stale byte, so the padded states are equal. -/
theorem SameButStale.padTail_eq (hb : s.buf.wf = true) (hb' : s'.buf.wf = true) : padTail s = padTail s' := by
  have hbuf : clearTail s.buf s.filled = clearTail s'.buf s'.filled := by
    refine Memory.ext (clearTail_wf hb) (clearTail_wf hb') fun a _ => ?_
    rw [clearTail_read hb, clearTail_read hb', ← h.filled]
    by_cases ha : a < s.filled.toNat
    · rw [if_neg (by omega), if_neg (by omega), h.valid a ha]
    · rw [if_pos (by omega), if_pos (by omega)]
  simp only [padTail, State.mk.injEq]
  exact ⟨h.h, h.t0, h.t1, hbuf, h.filled, h.outlen, h.phase, h.pending, h.responses⟩

theorem SameButStale.finalDone_eq (hb : s.buf.wf = true) (hb' : s'.buf.wf = true) : finalDone s = finalDone s' := by
  have hpad : ∀ u : State, padTail (ctrAdd u.filled u) = ctrAdd u.filled (padTail u) := fun _ => rfl
  rw [finalDone, finalDone, hpad s, hpad s', h.padTail_eq hb hb', h.filled]

end

/-- Settles O44: each state that a completed command leaves keeps the relation, FINAL by leaving no stale byte. -/
theorem staleBytesNeverMatter : Obligations.StaleBytesNeverMatter := by
  intro i s s' hi hi' h
  refine exec_related i h.sameDecisions h.respond h.initDone
    (fun b _ hf => h.absorbDone b hi.bufCanonical hi'.bufCanonical hf) fun _ => ?_
  rw [h.finalDone_eq hi.bufCanonical hi'.bufCanonical]
  exact SameButStale.refl _

end Sys2Proof.Machine
end

section
/-! SUPPORT. A run of presented commands (R10, R59): a step decodes what the encoder presented, and no command sees or changes
what is still pending. -/

namespace Sys2Proof.Machine

/-- Decoding undoes encoding, for a command whose key operand has no bit that it does not read. -/
theorem decode_encode {i : Instr} (h : i.wellFormed = true) : decode (encode i) = .ok i := by
  cases i with
  | init o k key => simp [decode, encode, Laws.usedKey_eq_self (of_decide_eq_true h)]
  | absorb b => simp [decode, encode]
  | final => simp [decode, encode]
  | rddig idx => simp [decode, encode]

theorem step_command {s : State} {c : PortCommand} {rest : List PortInput} {i : Instr}
    (hp : s.pending = .command c :: rest) (hc : decode c = .ok i) : step s = exec i (takeInput rest s) := by
  simp only [step, hp, hc]

theorem exec_next_pending {i : Instr} {s t : State} (h : exec i s = .next t) : t.pending = s.pending := by
  obtain ⟨o, k, key, -, -, rfl⟩ | ⟨o, k, key, -, -, rfl⟩ | ⟨b, -, -, -, rfl⟩ | ⟨-, -, rfl⟩ |
    ⟨idx, b, -, -, -, rfl⟩ := exec_next h
  · rfl
  · rfl
  · exact flushFull_pending s
  · rfl
  · rfl

theorem flushFull_takeInput (rest : List PortInput) (s : State) :
    flushFull (takeInput rest s) = takeInput rest (flushFull s) := by
  by_cases hf : s.filled = 128
  · rw [flushFull_of_full hf, flushFull_of_full (s := takeInput rest s) hf]
    rfl
  · rw [flushFull_of_not_full hf, flushFull_of_not_full (s := takeInput rest s) hf]

theorem absorbDone_takeInput (b : Byte) (rest : List PortInput) (s : State) :
    absorbDone b (takeInput rest s) = takeInput rest (absorbDone b s) := by
  rw [absorbDone, flushFull_takeInput]
  rfl

/-- What is pending decides nothing in a command, and no command changes it. -/
theorem exec_takeInput (i : Instr) (rest : List PortInput) (s : State) :
    OutcomesRelated (fun t t' => t' = takeInput rest t) (exec i s) (exec i (takeInput rest s)) :=
  exec_related i ⟨rfl, fun _ => rfl, fun _ => rfl, fun _ => rfl⟩ (fun _ _ => rfl) (fun _ _ _ => rfl)
    (fun b _ _ => absorbDone_takeInput b rest s) fun _ => rfl

theorem execSeq_cons_fault {i : Instr} {is : List Instr} {s : State} {f : Fault} (h : exec i s = .fault f) :
    execSeq (i :: is) s = .fault f := by
  simp only [execSeq, h]

theorem execSeq_cons_refused {i : Instr} {is : List Instr} {s : State} {r : Refusal} (h : exec i s = .refused r) :
    execSeq (i :: is) s = .refused r := by
  simp only [execSeq, h]

/-- The commands of a list as the outside presents them. -/
def presented (is : List Instr) : List PortInput := is.map fun i => .command (encode i)

/-- Each step takes the head command from the port and runs it as the sequence does; induction on the commands. -/
theorem run_presented (is : List Instr) {s : State} {rest : List PortInput} (hw : ∀ i ∈ is, i.wellFormed = true)
    (hp : s.pending = presented is ++ rest) :
    (Host.Core.run Sys2Proof.core is.length s : Host.Outcome State Fault Refusal) = execSeq is (takeInput rest s) := by
  induction is generalizing s with
  | nil =>
    obtain rfl : s.pending = rest := hp
    rfl
  | cons i is ih =>
    obtain ⟨hwi, hwis⟩ := List.forall_mem_cons.mp hw
    have hstep : step s = exec i (takeInput (presented is ++ rest) s) := step_command hp (decode_encode hwi)
    have hrel : OutcomesRelated (fun t t' => t' = takeInput rest t) (step s) (exec i (takeInput rest s)) := by
      rw [hstep]
      exact exec_takeInput i rest _
    cases hs : step s with
    | next t =>
      rw [hs] at hrel
      obtain ⟨t', ht', rfl⟩ := hrel.of_next
      have hrun := ih hwis (exec_next_pending (hstep.symm.trans hs))
      exact (run_next _ hs).trans (hrun.trans (execSeq_cons_next ht').symm)
    | fault f =>
      rw [hs] at hrel
      exact (run_fault _ hs).trans (execSeq_cons_fault hrel.of_fault).symm
    | refused r =>
      rw [hs] at hrel
      exact (run_refused _ hs).trans (execSeq_cons_refused hrel.of_refused).symm

/-- Settles O4, by induction on the commands (`run_presented`). -/
theorem runOfPresentedCommandsIsTheirSequence : Obligations.RunOfPresentedCommandsIsTheirSequence :=
  fun is _ _ hw hp => run_presented is hw hp

end Sys2Proof.Machine
end

section
/-! SUPPORT. `MemWrite` and `MemRead` of one range (R56). -/

namespace Sys2Proof.Machine

theorem Memory.bytes_succ (m : Memory) (a n : Nat) : m.bytes a (n + 1) = m.read a :: m.bytes (a + 1) n := by
  rw [Memory.bytes, List.range'_succ, List.map_cons, Memory.bytes]

/-- The bytes that a little-endian write puts are the written number again, cut to their width. -/
theorem Memory.leNat_bytes_writeLE {m : Memory} (hm : m.wf = true) {a n : Nat} (e : Nat) (h : a + n ≤ 128) :
    leNat ((m.writeLE a n e).bytes a n) = e % 2 ^ (8 * n) := by
  induction n generalizing m a e with
  | zero => exact (Nat.mod_one e).symm
  | succ n ih =>
    rw [Memory.writeLE, Memory.bytes_succ, Memory.writeLE_read_other _ _ _ _ _ (.inl (Nat.lt_succ_self a)),
      Memory.read_write hm, if_pos rfl, leNat, ih (Memory.wf_write hm (by omega)) _ (by omega), BitVec.toNat_ofNat,
      show 8 * (n + 1) = 8 + 8 * n by ring, pow_add, Nat.mod_mul]

/-- Settles O16: in range by the laws of the little-endian write, out of range by the two guards. -/
theorem bufferReadAfterWrite : Obligations.BufferReadAfterWrite := by
  refine ⟨fun m a n e hm h => ⟨m.writeLE a n e, if_pos h, Memory.wf_writeLE hm h, fun j => Memory.writeLE_read hm h,
    fun x => Memory.writeLE_read_other m a n e x, ?_⟩, fun m a n e h => ?_⟩
  · rw [memRead, if_pos h, Memory.leNat_bytes_writeLE hm e h]
  · have hout : ¬ a + n ≤ 128 := Nat.not_le_of_lt h
    exact ⟨if_neg hout, if_neg hout⟩

end Sys2Proof.Machine
end

section
/-! SUPPORT. Faults: a command that is not admitted is refused, and an admitted one completes under the invariant. -/

namespace Sys2Proof.Machine

theorem exec_refused_of_not_admitted {i : Instr} {s : State} (h : ¬ Admitted i s) : ∃ why, exec i s = .refused why := by
  cases i with
  | init o k key => exact absurd trivial h
  | absorb b => exact ⟨_, inPhase_other h⟩
  | final => exact ⟨_, inPhase_other h⟩
  | rddig idx =>
    by_cases hp : s.phase = .done
    · have hi : ¬ idx.toNat < s.outlen.toNat := fun hi => h ⟨hp, hi⟩
      exact ⟨_, (inPhase_same hp).trans (if_neg hi)⟩
    · exact ⟨_, inPhase_other hp⟩

theorem exec_ne_fault {s : State} (h : Inv s) (i : Instr) (f : Fault) : exec i s ≠ .fault f := by
  by_cases ha : Admitted i s
  · obtain ⟨t, ht⟩ := completes_of_admitted h ha
    simp [ht]
  · obtain ⟨why, hw⟩ := exec_refused_of_not_admitted ha
    simp [hw]

/-- Settles O43: of the things a step can do (`step_cases`) only a command could fault, and under the invariant none does. -/
theorem noFaultFromInvariantStates : Obligations.NoFaultFromInvariantStates := by
  intro s f h
  obtain ⟨-, h0⟩ | ⟨rest, -, h0⟩ | ⟨c, rest, -, ⟨why, -, h0⟩ | ⟨i, -, h0⟩⟩ := step_cases s
  · simp [h0]
  · simp [h0]
  · simp [h0]
  · rw [h0]
    exact exec_ne_fault (inv_takeInput h rest) i f

end Sys2Proof.Machine
end

section
/-! SUPPORT. The decoder (R72, R73, R80, R81): the words that are commands, by their fields, and by mask and match; and what is
read encodes to what was presented. -/

namespace Sys2Proof.Machine

open Laws

/-- Settles O5: one case per command, the key operand of INIT kept whole (`decode_encode`). -/
theorem decodeInvertsEncode : Obligations.DecodeInvertsEncode := fun _ h => decode_encode h

/-! ### What each command is decoded from -/

theorem decode_init {w : CmdWord} (h : opField w = 1) (key : KeyOperand) :
    decode { word := w, key := key } = .ok (.init (aField w) (bField w) (usedKey (bField w) key)) := by
  simp [decode, h]

/-- Only an INIT word has its key operand read (R74). -/
theorem decode_key_irrelevant {w : CmdWord} (h : opField w ≠ 1) (key key' : KeyOperand) :
    decode { word := w, key := key } = decode { word := w, key := key' } := by
  simp only [decode, if_neg h]

theorem decode_eq_init_iff {c : PortCommand} :
    (∃ key, decode c = .ok (.init (aField c.word) (bField c.word) key)) ↔ opField c.word = 1 := by
  constructor
  · rintro ⟨key, h⟩
    obtain ⟨-, hop⟩ | ⟨hi, -⟩ | ⟨hi, -⟩ | ⟨hi, -⟩ := decode_ok_cases h
    · exact hop
    all_goals cases hi
  · exact fun h => ⟨_, decode_init h c.key⟩

theorem decode_eq_absorb_iff {c : PortCommand} :
    decode c = .ok (.absorb (aField c.word)) ↔ opField c.word = 2 ∧ bField c.word = 0 := by
  constructor
  · intro h
    obtain ⟨hi, -⟩ | ⟨-, hf⟩ | ⟨hi, -⟩ | ⟨hi, -⟩ := decode_ok_cases h
    · cases hi
    · exact hf
    all_goals cases hi
  · rintro ⟨hop, hb⟩
    simp [decode, hop, hb]

theorem decode_eq_final_iff {c : PortCommand} :
    decode c = .ok .final ↔ opField c.word = 3 ∧ bField c.word = 0 ∧ aField c.word = 0 := by
  constructor
  · intro h
    obtain ⟨hi, -⟩ | ⟨hi, -⟩ | ⟨-, hf⟩ | ⟨hi, -⟩ := decode_ok_cases h
    · cases hi
    · cases hi
    · exact hf
    · cases hi
  · rintro ⟨hop, hb, ha⟩
    simp [decode, hop, hb, ha]

theorem decode_eq_rddig_iff {c : PortCommand} :
    decode c = .ok (.rddig (aField c.word)) ↔ opField c.word = 4 ∧ bField c.word = 0 := by
  constructor
  · intro h
    obtain ⟨hi, -⟩ | ⟨hi, -⟩ | ⟨hi, -⟩ | ⟨-, hf⟩ := decode_ok_cases h
    · cases hi
    · cases hi
    · cases hi
    · exact hf
  · rintro ⟨hop, hb⟩
    simp [decode, hop, hb]

/-! ### Encoding what was read -/

theorem wellFormed_of_decode {c : PortCommand} {i : Instr} (h : decode c = .ok i) : i.wellFormed = true := by
  obtain ⟨rfl, -⟩ | ⟨rfl, -⟩ | ⟨rfl, -⟩ | ⟨rfl, -⟩ := decode_ok_cases h
  · exact decide_eq_true (usedKey_lt _ _)
  all_goals rfl

theorem encode_word_of_decode {c : PortCommand} {i : Instr} (h : decode c = .ok i) : (encode i).word = c.word := by
  have hw := packWord_fields c.word
  obtain ⟨rfl, hop⟩ | ⟨rfl, hop, hb⟩ | ⟨rfl, hop, hb, ha⟩ | ⟨rfl, hop, hb⟩ := decode_ok_cases h
  · rwa [hop] at hw
  · rwa [hop, hb] at hw
  · rwa [hop, hb, ha] at hw
  · rwa [hop, hb] at hw

/-- Settles O6: a word is its three fields again, and the decoder keeps the key bits that an INIT reads. -/
theorem encodeInvertsDecode : Obligations.EncodeInvertsDecode := by
  intro c i h
  refine ⟨wellFormed_of_decode h, encode_word_of_decode h, ?_⟩
  rintro o k key rfl n
  obtain ⟨hi, -⟩ | ⟨hi, -⟩ | ⟨hi, -⟩ | ⟨hi, -⟩ := decode_ok_cases h
  · cases hi
    exact usedKey_getLsbD _ _ n
  all_goals cases hi

/-! ### Mask and match -/

theorem word_eq_iff_fields {w v : CmdWord} :
    w = v ↔ opField w = opField v ∧ bField w = bField v ∧ aField w = aField v := by
  constructor
  · rintro rfl
    exact ⟨rfl, rfl, rfl⟩
  · rintro ⟨hop, hb, ha⟩
    rw [← packWord_fields w, hop, hb, ha, packWord_fields]

/-- A mask acts on the three fields of a word one by one. -/
theorem word_and_eq_iff_fields {w m v : CmdWord} :
    w &&& m = v ↔ opField w &&& opField m = opField v ∧ bField w &&& bField m = bField v ∧
      aField w &&& aField m = aField v := by
  rw [word_eq_iff_fields]
  simp only [opField, bField, aField, BitVec.extractLsb'_and]

/-- The mask 0xF0000 leaves `op` alone. -/
theorem word_and_opMask {w : CmdWord} (op : BitVec 4) : w &&& 0xF0000 = packWord op 0 0 ↔ opField w = op := by
  rw [word_and_eq_iff_fields, opField_packWord, bField_packWord, aField_packWord,
    show opField 0xF0000 = BitVec.allOnes 4 from rfl, show bField 0xF0000 = 0 from rfl,
    show aField 0xF0000 = 0 from rfl]
  simp only [BitVec.and_allOnes, BitVec.ofNat_eq_ofNat, BitVec.and_zero, and_true]

/-- The mask 0xFFF00 leaves `op` and `b`. -/
theorem word_and_opMask_bMask {w : CmdWord} (op : BitVec 4) :
    w &&& 0xFFF00 = packWord op 0 0 ↔ opField w = op ∧ bField w = 0 := by
  rw [word_and_eq_iff_fields, opField_packWord, bField_packWord, aField_packWord,
    show opField 0xFFF00 = BitVec.allOnes 4 from rfl, show bField 0xFFF00 = BitVec.allOnes 8 from rfl,
    show aField 0xFFF00 = 0 from rfl]
  simp only [BitVec.and_allOnes, BitVec.ofNat_eq_ofNat, BitVec.and_zero, and_true]

/-- The mask 0xFFFFF leaves the whole word. -/
theorem word_and_fullMask {w : CmdWord} (op : BitVec 4) :
    w &&& 0xFFFFF = packWord op 0 0 ↔ opField w = op ∧ bField w = 0 ∧ aField w = 0 := by
  rw [show (0xFFFFF : CmdWord) = BitVec.allOnes 20 from rfl, BitVec.and_allOnes, word_eq_iff_fields, opField_packWord,
    bField_packWord, aField_packWord]

/-- Settles O7: a mask leaves exactly the fields that the decoder tests for its command. -/
theorem opcodeMapByMaskAndMatch : Obligations.OpcodeMapByMaskAndMatch := fun _ =>
  ⟨decode_eq_init_iff.trans (word_and_opMask 1).symm, decode_eq_absorb_iff.trans (word_and_opMask_bMask 2).symm,
    decode_eq_final_iff.trans (word_and_fullMask 3).symm, decode_eq_rddig_iff.trans (word_and_opMask_bMask 4).symm⟩

/-! ### Reserved words -/

/-- The words that are commands, by their fields (R73). -/
def IsCommandWord (w : CmdWord) : Prop :=
  opField w = 1 ∨ (opField w = 2 ∧ bField w = 0) ∨ (opField w = 3 ∧ bField w = 0 ∧ aField w = 0) ∨
    (opField w = 4 ∧ bField w = 0)

theorem exists_decode_ok_iff {c : PortCommand} : (∃ i, decode c = .ok i) ↔ IsCommandWord c.word := by
  constructor
  · rintro ⟨i, h⟩
    obtain ⟨-, hf⟩ | ⟨-, hf⟩ | ⟨-, hf⟩ | ⟨-, hf⟩ := decode_ok_cases h
    · exact .inl hf
    · exact .inr (.inl hf)
    · exact .inr (.inr (.inl hf))
    · exact .inr (.inr (.inr hf))
  · rintro (hf | hf | hf | hf)
    · exact ⟨_, decode_init hf c.key⟩
    · exact ⟨_, decode_eq_absorb_iff.mpr hf⟩
    · exact ⟨_, decode_eq_final_iff.mpr hf⟩
    · exact ⟨_, decode_eq_rddig_iff.mpr hf⟩

theorem exists_decode_error_iff {c : PortCommand} : (∃ why, decode c = .error why) ↔ ¬ IsCommandWord c.word := by
  rw [← exists_decode_ok_iff]
  cases decode c <;> simp

/-- Bits 15..0 of a word are its fields `b` and `a`. -/
theorem low16_eq_zero_iff {w : CmdWord} : w.extractLsb' 0 16 = 0 ↔ bField w = 0 ∧ aField w = 0 := by
  simp only [← BitVec.toNat_inj, bField_toNat, aField_toNat, BitVec.extractLsb'_toNat, Nat.shiftRight_zero,
    BitVec.ofNat_eq_ofNat, BitVec.toNat_ofNat]
  omega

theorem step_reserved {s : State} {c : PortCommand} {rest : List PortInput} {why : Reserved}
    (hp : s.pending = .command c :: rest) (hc : decode c = .error why) : step s = .refused (.reservedWord why) := by
  simp only [step, hp, hc]

/-- The three cases of R80 are what is left of the words beside the commands. -/
theorem not_isCommandWord_iff {w : CmdWord} : ¬ IsCommandWord w ↔
    (opField w = 0 ∨ 5 ≤ (opField w).toNat) ∨ ((opField w = 2 ∨ opField w = 4) ∧ bField w ≠ 0) ∨
      (opField w = 3 ∧ w.extractLsb' 0 16 ≠ 0) := by
  rw [IsCommandWord, ne_eq, ne_eq, low16_eq_zero_iff]
  have := (opField w).isLt
  simp only [← BitVec.toNat_inj, BitVec.ofNat_eq_ofNat, BitVec.toNat_ofNat]
  omega

end Sys2Proof.Machine
end

section
/-! SUPPORT. How many of the 2^20 words each command has, and how many are reserved (R80): each opcode's words are an interval. -/

namespace Sys2Proof.Machine

open Laws

theorem opcode_of_decode {c : PortCommand} {i : Instr} (h : decode c = .ok i) : commandOpcode i = opField c.word := by
  obtain ⟨rfl, hop⟩ | ⟨rfl, hop, -⟩ | ⟨rfl, hop, -⟩ | ⟨rfl, hop, -⟩ := decode_ok_cases h
  all_goals exact hop.symm

theorem wordOpcode_eq_some_iff {n : Nat} {op : BitVec 4} :
    wordOpcode n = some op ↔ IsCommandWord (BitVec.ofNat 20 n) ∧ opField (BitVec.ofNat 20 n) = op := by
  rw [← exists_decode_ok_iff (c := { word := BitVec.ofNat 20 n, key := 0 }), wordOpcode]
  cases hd : decode { word := BitVec.ofNat 20 n, key := 0 } with
  | ok i => simp [opcode_of_decode hd]
  | error why => simp

/-- The words of each opcode as numbers: `op` is the word divided by 65536, `b` is zero below 256 past a multiple of it. -/
theorem wordOpcode_eq_some_iff_range {n : Nat} (hn : n < 2 ^ 20) (op : BitVec 4) : wordOpcode n = some op ↔
    op.toNat = n / 65536 ∧
      (op.toNat = 1 ∨ (op.toNat = 2 ∧ n < 0x20100) ∨ (op.toNat = 3 ∧ n = 0x30000) ∨ (op.toNat = 4 ∧ n < 0x40100)) := by
  simp only [wordOpcode_eq_some_iff, IsCommandWord, ← BitVec.toNat_inj, opField_toNat, bField_toNat, aField_toNat,
    BitVec.ofNat_eq_ofNat, BitVec.toNat_ofNat, Nat.mod_eq_of_lt hn]
  omega

/-- The count of a predicate that holds on one interval is the length of the interval. -/
theorem count_interval {p : Nat → Prop} [DecidablePred p] {lo hi N : Nat} (hN : hi ≤ N)
    (hp : ∀ n, n < N → (p n ↔ lo ≤ n ∧ n < hi)) : Nat.count p N = hi - lo := by
  rw [Nat.count_eq_card_filter_range, ← Nat.card_Ico]
  congr 1
  ext n
  rw [Finset.mem_filter, Finset.mem_range, Finset.mem_Ico]
  constructor
  · rintro ⟨hn, h⟩
    exact (hp n hn).mp h
  · intro h
    have hn : n < N := by omega
    exact ⟨hn, (hp n hn).mpr h⟩

theorem count_init_words : Nat.count (fun n => wordOpcode n = some 1) (2 ^ 20) = 65536 :=
  count_interval (lo := 0x10000) (hi := 0x20000) (by decide) fun n hn => by
    rw [wordOpcode_eq_some_iff_range hn, show (1 : BitVec 4).toNat = 1 from rfl]
    omega

theorem count_absorb_words : Nat.count (fun n => wordOpcode n = some 2) (2 ^ 20) = 256 :=
  count_interval (lo := 0x20000) (hi := 0x20100) (by decide) fun n hn => by
    rw [wordOpcode_eq_some_iff_range hn, show (2 : BitVec 4).toNat = 2 from rfl]
    omega

theorem count_final_words : Nat.count (fun n => wordOpcode n = some 3) (2 ^ 20) = 1 :=
  count_interval (lo := 0x30000) (hi := 0x30001) (by decide) fun n hn => by
    rw [wordOpcode_eq_some_iff_range hn, show (3 : BitVec 4).toNat = 3 from rfl]
    omega

theorem count_rddig_words : Nat.count (fun n => wordOpcode n = some 4) (2 ^ 20) = 256 :=
  count_interval (lo := 0x40000) (hi := 0x40100) (by decide) fun n hn => by
    rw [wordOpcode_eq_some_iff_range hn, show (4 : BitVec 4).toNat = 4 from rfl]
    omega

theorem wordOpcode_mem (n : Nat) :
    wordOpcode n ∈ ({none, some 1, some 2, some 3, some 4} : Finset (Option (BitVec 4))) := by
  cases h : wordOpcode n with
  | none => simp
  | some op =>
    obtain ⟨hw, rfl⟩ := wordOpcode_eq_some_iff.mp h
    obtain hop | ⟨hop, -⟩ | ⟨hop, -⟩ | ⟨hop, -⟩ := hw
    all_goals simp [hop]

/-- Every word is reserved or has one of the four opcodes. -/
theorem count_all_words (N : Nat) : N = Nat.count (fun n => wordOpcode n = none) N +
    (Nat.count (fun n => wordOpcode n = some 1) N + (Nat.count (fun n => wordOpcode n = some 2) N +
      (Nat.count (fun n => wordOpcode n = some 3) N + Nat.count (fun n => wordOpcode n = some 4) N))) := by
  have h := Finset.card_eq_sum_card_fiberwise (s := Finset.range N) fun n _ => wordOpcode_mem n
  rw [Finset.card_range, Finset.sum_insert (by decide), Finset.sum_insert (by decide), Finset.sum_insert (by decide),
    Finset.sum_insert (by decide), Finset.sum_singleton] at h
  simpa only [Nat.count_eq_card_filter_range] using h

theorem count_reserved_words : Nat.count (fun n => wordOpcode n = none) (2 ^ 20) = 982527 := by
  have h := count_all_words (2 ^ 20)
  rw [count_init_words, count_absorb_words, count_final_words, count_rddig_words] at h
  omega

/-- Settles O8: the decoder refuses what is no command word, the step refuses what the decoder does, and each opcode's words
are an interval. -/
theorem reservedWordsExactly : Obligations.ReservedWordsExactly :=
  ⟨fun _ => exists_decode_error_iff.trans not_isCommandWord_iff, fun _ _ _ _ => step_reserved, count_init_words,
    count_absorb_words, count_final_words, count_rddig_words, count_reserved_words⟩

end Sys2Proof.Machine
end

section
/-! SUPPORT. The key operand (R74, R83): the bits that INIT does not read change nothing, and a key of at most 64 bytes is read
back from the port byte for byte. -/

namespace Sys2Proof.Machine

open Laws

/-- The decoder keeps every key byte that INIT reads. -/
theorem keyByte_usedKey {k : Byte} {j : Nat} (hj : j < keyBytesRead k) (key : KeyOperand) :
    keyByte (usedKey k key) j = keyByte key j := by
  refine BitVec.eq_of_getLsbD_eq fun i hi => ?_
  have hbit : 8 * j + i < 8 * keyBytesRead k := by omega
  rw [keyByte_getLsbD _ _ _ hi, keyByte_getLsbD _ _ _ hi, usedKey_getLsbD, decide_eq_true hbit, Bool.true_and]

/-- The key operand that the decoder keeps depends only on the bits that INIT reads. -/
theorem usedKey_congr {k : Byte} {key key' : KeyOperand}
    (h : ∀ n, n < 8 * keyBytesRead k → key.getLsbD n = key'.getLsbD n) : usedKey k key = usedKey k key' := by
  refine BitVec.eq_of_getLsbD_eq fun n _ => ?_
  rw [usedKey_getLsbD, usedKey_getLsbD]
  by_cases hn : n < 8 * keyBytesRead k
  · rw [h n hn]
  · simp [hn]

theorem keyBytes_congr {k : Byte} {key key' : KeyOperand} (h : ∀ j, j < k.toNat → keyByte key j = keyByte key' j) :
    keyBytes k key = keyBytes k key' :=
  List.map_congr_left fun j hj => h j (List.mem_range.mp hj)

/-- INIT reads its key only when the parameters are legal, and then its `keylen` bytes only. -/
theorem execInit_key_congr (o : Byte) {k : Byte} {key key' : KeyOperand} (s : State)
    (h : k.toNat ≤ 64 → keyBytes k key = keyBytes k key') : execInit o k key s = execInit o k key' s := by
  cases hv : paramsInvalid o k with
  | true => rw [execInit_invalid key s hv, execInit_invalid key' s hv]
  | false =>
    obtain ⟨-, -, hk⟩ := paramsValid_iff.mp hv
    rw [execInit_valid key s hv, execInit_valid key' s hv, initDone, initDone, h hk]

/-- Settles O9: the decoder keeps the key bits that INIT reads and no others, no other command has a key, and INIT reads its key
bytes only. -/
theorem keyBitsPastTheLengthIgnored : Obligations.KeyBitsPastTheLengthIgnored := by
  refine ⟨fun w key hop => ⟨_, decode_init hop key, fun j hj => keyByte_usedKey hj key⟩, fun w key key' h => ?_,
    fun o k key key' s h => execInit_key_congr o s fun hk => keyBytes_congr (h hk)⟩
  by_cases hop : opField w = 1
  · rw [decode_init hop, decode_init hop, show usedKey (bField w) key = usedKey (bField w) key' from usedKey_congr (h hop)]
  · exact decode_key_irrelevant hop key key'

/-- A key of at most 64 bytes is a number that fits the port. -/
theorem leNat_lt_port {key : List Byte} (h : key.length ≤ 64) : leNat key < 2 ^ 512 :=
  have hbits : 8 * key.length ≤ 512 := by omega
  (leNat_lt key).trans_le (pow_le_pow_right₀ one_le_two hbits)

theorem toNat_shiftLeft_of_lt {w n : Nat} {x : BitVec w} (h : x.toNat <<< n < 2 ^ w) :
    (x <<< n).toNat = x.toNat <<< n := by
  rw [BitVec.toNat_shiftLeft, Nat.mod_eq_of_lt h]

/-- The key operand as a number: the key bytes, byte 0 least significant. -/
theorem keyOperand_toNat {key : List Byte} (h : key.length ≤ 64) : (keyOperand key).toNat = leNat key := by
  induction key with
  | nil => exact BitVec.toNat_zero
  | cons b bs ih =>
    have hbs : bs.length ≤ 64 := Nat.le_of_succ_le h
    have hport : (keyOperand bs).toNat <<< 8 < 2 ^ 512 := by
      refine lt_of_le_of_lt ?_ (leNat_lt_port h)
      rw [ih hbs, leNat, Nat.shiftLeft_eq, Nat.mul_comm]
      exact Nat.le_add_left _ _
    rw [keyOperand, BitVec.toNat_or, toNat_shiftLeft_of_lt hport, ih hbs, BitVec.toNat_setWidth_of_le (by decide),
      ← Nat.shiftLeft_add_eq_or_of_lt b.isLt, leNat, Nat.shiftLeft_eq]
    ring

theorem keyByte_toNat (key : KeyOperand) (j : Nat) : (keyByte key j).toNat = key.toNat / 2 ^ (8 * j) % 256 := by
  rw [keyByte, BitVec.extractLsb'_toNat, Nat.shiftRight_eq_div_pow]

theorem byte_ofNat_toNat {n : Nat} (h : n < 256) : (BitVec.ofNat 8 n).toNat = n := by
  rw [BitVec.toNat_ofNat, Nat.mod_eq_of_lt h]

/-- A key that the port carries whole is read back from it. -/
theorem keyBytes_keyOperand {key : List Byte} (h : key.length ≤ 64) :
    keyBytes (BitVec.ofNat 8 key.length) (keyOperand key) = key := by
  have hlen : (BitVec.ofNat 8 key.length).toNat = key.length := byte_ofNat_toNat (by omega)
  refine List.ext_getElem ((keyBytes_length _ _).trans hlen) fun j _ hj => BitVec.eq_of_toNat_eq ?_
  rw [← leNat_digit key j hj, ← keyOperand_toNat h, ← keyByte_toNat]
  simp [keyBytes]

/-- The key operand of a key that the port carries whole has no bit past its bytes. -/
theorem wellFormed_init_keyOperand (o : Byte) {key : List Byte} (h : key.length ≤ 64) :
    (Instr.init o (BitVec.ofNat 8 key.length) (keyOperand key)).wellFormed = true := by
  have hlen : (BitVec.ofNat 8 key.length).toNat = key.length := byte_ofNat_toNat (by omega)
  refine decide_eq_true ?_
  rw [keyBytesRead, hlen, if_pos h, keyOperand_toNat h]
  exact leNat_lt key

/-- Settles O10: the key operand is the little-endian number of the key (`keyOperand_toNat`). -/
theorem keyBytesStandOnThePort : Obligations.KeyBytesStandOnThePort :=
  fun o _ h => ⟨wellFormed_init_keyOperand o h, keyBytes_keyOperand h⟩

end Sys2Proof.Machine
end

section
/-! SUPPORT. The assembler (R83): a line is the encoding of its command. -/

namespace Sys2Proof.Machine

open Laws

theorem assemble_init {o k : Nat} {key : List Byte} (ho : o < 256) (hk : k < 256) (hl : key.length = k) :
    assemble (.init o k key) = some (encode (.init (BitVec.ofNat 8 o) (BitVec.ofNat 8 k) (keyOperand key))) :=
  if_pos ⟨ho, hk, hl⟩

theorem assemble_absorb {b : Nat} (hb : b < 256) : assemble (.absorb b) = some (encode (.absorb (BitVec.ofNat 8 b))) :=
  if_pos hb

theorem assemble_rddig {i : Nat} (hi : i < 256) : assemble (.rddig i) = some (encode (.rddig (BitVec.ofNat 8 i))) :=
  if_pos hi

/-- The word of an encoding with operands given as numbers. -/
theorem packWord_ofNat_toNat (op : BitVec 4) {b a : Nat} (hb : b < 256) (ha : a < 256) :
    (packWord op (BitVec.ofNat 8 b) (BitVec.ofNat 8 a)).toNat = op.toNat * 0x10000 + b * 2 ^ 8 + a := by
  rw [packWord_toNat, byte_ofNat_toNat hb, byte_ofNat_toNat ha]
  rfl

theorem decode_encode_init (o k : Byte) (key : KeyOperand) :
    decode (encode (.init o k key)) = .ok (.init o k (usedKey k key)) := by
  simp [decode, encode]

/-- The decoder drops nothing of a key that the port carries whole. -/
theorem keyBytes_usedKey_keyOperand {key : List Byte} (h : key.length ≤ 64) :
    keyBytes (BitVec.ofNat 8 key.length) (usedKey (BitVec.ofNat 8 key.length) (keyOperand key)) = key := by
  rw [usedKey_eq_self (of_decide_eq_true (wellFormed_init_keyOperand 0 h)), keyBytes_keyOperand h]

/-- Settles O11: a line is the encoding of its command (`packWord_ofNat_toNat` for its word), and decoding undoes encoding. -/
theorem assembledLinesDecodeAsWritten : Obligations.AssembledLinesDecodeAsWritten := by
  refine ⟨fun o k key ho hk hl => ?_, fun b hb => ?_, ?_, fun i hi => ?_⟩
  · refine ⟨_, _, assemble_init ho hk hl, packWord_ofNat_toNat 1 hk ho, decode_encode_init _ _ _, fun h64 => ?_⟩
    subst hl
    exact keyBytes_usedKey_keyOperand h64
  · exact ⟨_, assemble_absorb hb, packWord_ofNat_toNat 2 (b := 0) (by decide) hb, decode_encode rfl⟩
  · exact ⟨encode .final, rfl, rfl, decode_encode rfl⟩
  · exact ⟨_, assemble_rddig hi, packWord_ofNat_toNat 4 (b := 0) (by decide) hi, decode_encode rfl⟩

/-- Settles O12: the four command words are the encodings of their commands, and the three reserved ones fail the decoder's
test for their opcode. -/
theorem writtenWordsDecode : Obligations.WrittenWordsDecode :=
  ⟨decode_encode (i := .init 64 1 0x6B) (by decide +kernel), decode_encode (i := .absorb 0x61) rfl,
    decode_encode (i := .final) rfl, decode_encode (i := .rddig 5) rfl, by decide, by decide, by decide⟩

end Sys2Proof.Machine
end

section
/-! SUPPORT. The step runs what is presented (R71, R81), and a completed command responds once (R79). -/

namespace Sys2Proof.Machine

theorem decodeTableWord_eq_some_iff {nbits w : Nat} {i : Instr} :
    decodeTableWord nbits w = some i ↔ decode (tablePresentation nbits w) = .ok i := by
  rw [decodeTableWord]
  cases decode (tablePresentation nbits w) <;> simp

/-- A command presented ahead of everything pending is the next one to run. -/
theorem step_present {c : PortCommand} {i : Instr} (hc : decode c = .ok i) (s : State) :
    step (present c s) = exec i s :=
  step_command (present_pending c s) hc

/-- Settles O2: `step_command`, and `withFetchWord` presents the table word ahead of everything pending. -/
theorem stepRunsTheDecodedCommand : Obligations.StepRunsTheDecodedCommand :=
  ⟨fun _ _ _ _ => step_command, fun s _ _ _ h => step_present (decodeTableWord_eq_some_iff.mp h) s⟩

/-- What R79 says of the response `r` to the command `i` in state `s`: the failing INIT's code, the digest byte of RDDIG, and no
data otherwise. -/
def IsResponseOf (i : Instr) (s : State) (r : Response) : Prop :=
  (r.code = .invalidParameter ↔ ∃ outlen keylen key, i = .init outlen keylen key ∧ paramsInvalid outlen keylen = true) ∧
    (∀ idx, i = .rddig idx → digestByte s.h idx.toNat = some r.data) ∧ ((∀ idx, i ≠ .rddig idx) → r.data = 0)

theorem exec_next_response {i : Instr} {s t : State} (h : exec i s = .next t) :
    ∃ r, t.responses = s.responses ++ [r] ∧ IsResponseOf i s r := by
  by_cases hr : ∃ idx, i = .rddig idx
  · obtain ⟨idx, rfl⟩ := hr
    obtain ⟨-, -, b, hb, rfl⟩ := execRddig_next h
    exact ⟨_, rfl, by simp [IsResponseOf, hb]⟩
  · obtain ⟨o, k, key, rfl, hv, rfl⟩ | ⟨o, k, key, rfl, hv, rfl⟩ | ⟨b, rfl, -, -, rfl⟩ | ⟨rfl, -, rfl⟩ |
      ⟨idx, b, rfl, -⟩ := exec_next h
    · exact ⟨_, rfl, by simp [IsResponseOf, hv]⟩
    · exact ⟨_, rfl, by simp [IsResponseOf, hv]⟩
    · exact ⟨_, absorbDone_responses b s, by simp [IsResponseOf]⟩
    · exact ⟨_, rfl, by simp [IsResponseOf]⟩
    · exact absurd ⟨idx, rfl⟩ hr

/-- Settles O39: the response is read off the state that each completed command leaves. -/
theorem oneResponsePerCommand : Obligations.OneResponsePerCommand :=
  ⟨rfl, rfl, fun _ _ _ h => ⟨exec_next_pending h, exec_next_response h⟩⟩

end Sys2Proof.Machine
end

section
/-! SUPPORT. The parameter block and the initial chained state (R102, R103): the block is four bytes followed by zeros, so only
its word 0 is not zero. -/

namespace Sys2Proof.Machine

theorem paramBlock_eq (o k : Byte) : paramBlock o k = [o, k, 1, 1] ++ List.replicate 60 0 := rfl

/-- Settles O24: four bytes, then sixty zeros (`paramBlock_eq`). -/
theorem parameterBlockLayout : Obligations.ParameterBlockLayout := by
  refine fun o k => ⟨rfl, rfl, rfl, rfl, rfl, fun j h4 h64 => ?_⟩
  rw [paramBlock_eq, List.getElem?_append_right (by simpa using h4)]
  exact List.getElem?_replicate_of_lt (Nat.sub_lt_right_of_lt_add h4 h64)

theorem leNat_replicate_zero (n : Nat) : leNat (List.replicate n 0) = 0 := by
  induction n with
  | zero => rfl
  | succ n ih =>
    rw [List.replicate_succ, leNat, ih]
    rfl

theorem le64_paramBlock_zero_toNat (o k : Byte) :
    (le64 (paramBlock o k) 0).toNat = 0x01010000 + k.toNat * 256 + o.toNat := by
  have hchunk : leNat (((paramBlock o k).drop (8 * 0)).take 8) = 0x01010000 + k.toNat * 256 + o.toNat := by
    rw [paramBlock_eq]
    simp [leNat]
    omega
  rw [le64, hchunk, BitVec.toNat_ofNat, Nat.mod_eq_of_lt]
  omega

theorem le64_paramBlock_of_pos (o k : Byte) {i : Nat} (hi : 1 ≤ i) : le64 (paramBlock o k) i = 0 := by
  have hdrop : (paramBlock o k).drop (8 * i) = List.replicate (60 - (8 * i - 4)) 0 := by
    rw [paramBlock_eq, List.drop_append, List.drop_eq_nil_of_le (by simp; omega), List.drop_replicate]
    rfl
  rw [le64, hdrop, List.take_replicate, leNat_replicate_zero]
  rfl

/-- Word 0 of the parameter block by its fields: the two operands stand below the fanout and depth bytes and do not overlap. -/
theorem le64_paramBlock_zero (o k : Byte) :
    le64 (paramBlock o k) 0 = (0x01010000 : Word) ||| (k.setWidth 64 <<< 8) ||| o.setWidth 64 := by
  have hk : (k.setWidth 64 : Word).toNat = k.toNat := BitVec.toNat_setWidth_of_le (by decide)
  have hshift : ((k.setWidth 64 : Word) <<< 8).toNat = k.toNat <<< 8 := by
    rw [toNat_shiftLeft_of_lt (by rw [hk, Nat.shiftLeft_eq]; omega), hk]
  have hhigh : 0x01010000 ||| k.toNat <<< 8 = (0x0101 <<< 8 + k.toNat) <<< 8 := by
    rw [Nat.shiftLeft_add_eq_or_of_lt k.isLt, Nat.shiftLeft_or_distrib]
    rfl
  refine BitVec.eq_of_toNat_eq ?_
  rw [le64_paramBlock_zero_toNat, BitVec.toNat_or, BitVec.toNat_or, hshift, BitVec.toNat_setWidth_of_le (by decide),
    show (0x01010000 : Word).toNat = 0x01010000 from rfl, hhigh, ← Nat.shiftLeft_add_eq_or_of_lt o.isLt,
    Nat.shiftLeft_eq, Nat.shiftLeft_eq]
  omega

theorem initialState_getElem (o k : Byte) (i : Fin 8) :
    (initialState o k)[i] = iv[i] ^^^ le64 (paramBlock o k) i.val := by
  simp [initialState]

/-- Settles O25: each word of the chained state is the IV word xor a word of the block, and those of the block are
`le64_paramBlock_zero` and zeros. -/
theorem initialChainedStateClosedForm : Obligations.InitialChainedStateClosedForm := by
  refine fun o k => ⟨initialState_getElem o k, le64_paramBlock_zero_toNat o k, fun i h1 _ => le64_paramBlock_of_pos o k h1,
    ?_, fun i hi => ?_⟩
  · rw [← le64_paramBlock_zero]
    exact initialState_getElem o k 0
  · have hpos : 1 ≤ i.val := Nat.pos_of_ne_zero (Fin.val_ne_of_ne hi)
    rw [initialState_getElem, le64_paramBlock_of_pos o k hpos]
    exact BitVec.xor_zero

end Sys2Proof.Machine
end

section
/-! SUPPORT. INIT as a whole (R106 to R110): what the state it leaves holds in each field, and what it answers. -/

namespace Sys2Proof.Machine

theorem exec_init_valid {o k : Byte} (key : KeyOperand) (s : State) (ho1 : 1 ≤ o.toNat) (ho64 : o.toNat ≤ 64)
    (hk64 : k.toNat ≤ 64) : exec (.init o k key) s = .next (initDone o k key s) :=
  execInit_valid key s (paramsValid_iff.mpr ⟨ho1, ho64, hk64⟩)

@[simp] theorem initDone_h (o k : Byte) (key : KeyOperand) (s : State) : (initDone o k key s).h = initialState o k := rfl

@[simp] theorem initDone_t0 (o k : Byte) (key : KeyOperand) (s : State) : (initDone o k key s).t0 = 0 := rfl

@[simp] theorem initDone_t1 (o k : Byte) (key : KeyOperand) (s : State) : (initDone o k key s).t1 = 0 := rfl

@[simp] theorem initDone_pending (o k : Byte) (key : KeyOperand) (s : State) :
    (initDone o k key s).pending = s.pending := rfl

theorem initDone_buf_wf {o k : Byte} (key : KeyOperand) (s : State) (hk : k.toNat ≤ 64) :
    (initDone o k key s).buf.wf = true :=
  Memory.wf_writeBytes Memory.wf_zeroed (by rw [keyBytes_length]; omega)

/-- The key block: the key bytes, then zeros (R106). -/
theorem initDone_buf_read {o k : Byte} (key : KeyOperand) (s : State) (hk : k.toNat ≤ 64) (j : Nat) :
    (initDone o k key s).buf.read j = if j < k.toNat then keyByte key j else 0 := by
  rw [initDone_buf, Memory.read_writeBytes Memory.wf_zeroed (by rw [keyBytes_length]; omega), if_pos (Nat.zero_le j),
    Nat.sub_zero, Memory.read_zeroed]
  by_cases hj : j < k.toNat
  · simp [keyBytes, hj]
  · rw [if_neg hj, List.getElem?_eq_none (by rw [keyBytes_length]; omega)]
    rfl

/-- Settles O26: legal operands leave `initDone`, read field by field; illegal ones leave the exception's response only. -/
theorem initWholeCommand : Obligations.InitWholeCommand := by
  refine fun o k key s => ⟨fun ⟨ho1, ho64, hk64⟩ => ?_, fun hbad => ?_⟩
  · exact ⟨initDone o k key s, exec_init_valid key s ho1 ho64 hk64, initialState_getElem o k,
      fun j _ => initDone_buf_read key s hk64 j, initDone_buf_wf key s hk64, initDone_filled o k key s,
      initDone_t0 o k key s, initDone_t1 o k key s, initDone_outlen o k key s, initDone_phase o k key s,
      initDone_pending o k key s, initDone_responses o k key s⟩
  · exact execInit_invalid key s (paramsInvalid_iff.mpr hbad)

/-- Settles O27: both states go to `initDone`, which takes nothing but the port's two lists from the state before
(`initDone_congr`). -/
theorem initIgnoresPreviousContext : Obligations.InitIgnoresPreviousContext := by
  intro o k key s s' ho1 ho64 hk64 hp hr
  rw [exec_init_valid key s ho1 ho64 hk64, exec_init_valid key s' ho1 ho64 hk64, initDone_congr o k key hp hr]

end Sys2Proof.Machine
end

section
/-! SUPPORT. CTR_ADD (R122, R123): its test is the comparison of R122, and the comparison is true exactly on a wrap. -/

namespace Sys2Proof.Machine

theorem counterCarry_eq_true_iff {newLow n : Word} : counterCarry newLow n = true ↔ newLow < n := decide_eq_true_iff

/-- The sum is `low + n` when it fits, which is not below `n`, and `low + n - 2^64` when it wraps, which is. -/
theorem counterCarry_add_iff (low n : Word) : counterCarry (low + n) n = true ↔ 2 ^ 64 ≤ low.toNat + n.toNat := by
  have hlow := low.isLt
  have hn := n.isLt
  rw [counterCarry_eq_true_iff, BitVec.lt_def, BitVec.toNat_add]
  omega

/-- Settles O18: `CTR_ADD` with its test read as the comparison (`counterCarry_eq_true_iff`), which is exact
(`counterCarry_add_iff`). -/
theorem counterAddCarriesExactly : Obligations.CounterAddCarriesExactly :=
  ⟨fun _ _ => by simp only [ctrAdd, counterCarry_eq_true_iff], counterCarry_add_iff⟩

/-- Settles O19: the counter as one number (`ctrAdd_counter`). -/
theorem counterAddsModulo128Bits : Obligations.CounterAddsModulo128Bits := ctrAdd_counter

end Sys2Proof.Machine
end

section
/-! SUPPORT. ABSORB as a whole (R120, R121): the state it leaves with room in the buffer and with a full one, and its frame. -/

namespace Sys2Proof.Machine

theorem absorbDone_of_not_full {s : State} (b : Byte) (h : s.filled ≠ 128) :
    absorbDone b s = respond .ok 0 { s with buf := s.buf.write s.filled.toNat b, filled := s.filled + 1 } := by
  rw [absorbDone, flushFull_of_not_full h]

/-- A full block is counted and compressed first, so the byte lands at index 0. -/
theorem absorbDone_of_full {s : State} (b : Byte) (h : s.filled = 128) :
    absorbDone b s = respond .ok 0 { compress false (ctrAdd 128 s) with buf := s.buf.write 0 b, filled := 1 } := by
  rw [absorbDone, flushFull_of_full h]
  rfl

@[simp] theorem absorbDone_pending (b : Byte) (s : State) : (absorbDone b s).pending = s.pending := flushFull_pending s

theorem absorbDone_read_other {a : Nat} {b : Byte} {s : State} (ha : a ≠ (flushFull s).filled.toNat) :
    (absorbDone b s).buf.read a = s.buf.read a := by
  rw [absorbDone_buf, Memory.read_write_other ha]

/-- Settles O29: ABSORB completes with `absorbDone`, which is the append alone below 128 (`absorbDone_of_not_full`) and has the
counter and the compression before it at 128 (`absorbDone_of_full`). -/
theorem absorbAppendsOrCompressesFirst : Obligations.AbsorbAppendsOrCompressesFirst := by
  refine fun b s hp => ⟨fun hroom => ?_, fun hfull => ?_⟩
  · have hf : s.filled ≠ 128 := mt filled_eq_128.mp hroom.ne
    rw [exec_absorb, execAbsorb_active b hp hroom.le, absorbDone_of_not_full b hf]
    rfl
  · rw [exec_absorb, execAbsorb_active b hp hfull.le, absorbDone_of_full b (filled_eq_128.mpr hfull)]
    rfl

/-- Settles O31: the fields of `absorbDone`; without a full block there is no compression (`absorbDone_of_not_full`). -/
theorem absorbFrame : Obligations.AbsorbFrame := by
  intro b s t h
  obtain ⟨-, -, ht⟩ := execAbsorb_next h
  obtain rfl : t = absorbDone b s := ht
  refine ⟨absorbDone_outlen b s, absorbDone_phase b s, absorbDone_pending b s, fun hf => ?_,
    fun _ => absorbDone_read_other⟩
  rw [absorbDone_of_not_full b (mt filled_eq_128.mp hf)]
  exact ⟨rfl, rfl, rfl⟩

end Sys2Proof.Machine
end

section
/-! SUPPORT. `rotr64` (R141): for the amounts below 64 it is the library's rotation. -/

namespace Sys2Proof.Machine

theorem rotr64_eq_rotateRight (x : Word) {n : Nat} (hn : n < 64) : rotr64 x n = x.rotateRight n := by
  rw [BitVec.rotateRight_def, Nat.mod_eq_of_lt hn, rotr64]

theorem rotr64_getLsbD (x : Word) {n i : Nat} (hn : n < 64) (hi : i < 64) :
    (rotr64 x n).getLsbD i = x.getLsbD ((i + n) % 64) := by
  rw [rotr64_eq_rotateRight x hn, BitVec.getLsbD_rotateRight_of_lt hn]
  by_cases hwrap : i < 64 - n
  · have hpos : (i + n) % 64 = n + i := by omega
    simp [hwrap, hpos]
  · have hpos : (i + n) % 64 = i - (64 - n) := by omega
    simp [hwrap, hi, hpos]

theorem rotr64_halves (x : Word) : rotr64 x 32 = x.extractLsb' 0 32 ++ x.extractLsb' 32 32 := by
  refine BitVec.eq_of_getLsbD_eq fun i hi => ?_
  rw [rotr64_getLsbD x (by decide) hi, BitVec.getLsbD_append]
  by_cases hlow : i < 32
  · have hpos : (i + 32) % 64 = 32 + i := by omega
    simp [hlow, hpos]
  · have hpos : (i + 32) % 64 = i - 32 := by omega
    have hhigh : i - 32 < 32 := by omega
    simp [hlow, hhigh, hpos]

/-- Settles O15: the bits of the library's rotation (`rotr64_getLsbD`), from which the two special amounts follow. -/
theorem rotationMovesBits : Obligations.RotationMovesBits :=
  ⟨fun x _ _ _ hn hi => rotr64_getLsbD x (Nat.lt_succ_of_le hn) hi, rotr64_halves, fun _ => BitVec.or_comm _ _⟩

end Sys2Proof.Machine
end

section
/-! SUPPORT. The rows of SIGMA (R32, R148): rows 10 and 11 repeat rows 0 and 1, so a row of index `r mod 10` is the same row, and
a round takes nothing but the row from its index. -/

namespace Sys2Proof.Machine

theorem sigma_row_perm : ∀ r : Fin 12, (sigma[r]).toList.Perm (List.finRange 16) := by decide

theorem sigmaRow_mod_ten {r : Nat} (hr : r < 12) : sigmaRow r = sigmaRow (r % 10) := by
  obtain hlow | rfl | rfl : r < 10 ∨ r = 10 ∨ r = 11 := by omega
  · rw [Nat.mod_eq_of_lt hlow]
  · rfl
  · rfl

theorem mixRound_congr_row (v m : Words16) {r r' : Nat} (h : sigmaRow r = sigmaRow r') :
    mixRound v m r = mixRound v m r' := by
  simp only [mixRound, h]

/-- Settles O14: the rows are compared one by one, and equal rows give equal rounds (`mixRound_congr_row`). -/
theorem sigmaRowsArePermutations : Obligations.SigmaRowsArePermutations :=
  ⟨sigma_row_perm, rfl, rfl, fun v m _ hr => ⟨sigmaRow_mod_ten hr, mixRound_congr_row v m (sigmaRow_mod_ten hr)⟩⟩

end Sys2Proof.Machine
end

section
/-! SUPPORT. The message words (R145): the little-endian numbers of eight bytes each. -/

namespace Sys2Proof.Machine

theorem messageWord_toNat (m : Memory) (j : Fin 16) : (messageWord m j).toNat = leNat (m.bytes (8 * j.val) 8) := by
  have hlt := leNat_lt (m.bytes (8 * j.val) 8)
  rw [Memory.bytes_length] at hlt
  rw [messageWord, BitVec.toNat_ofNat, Nat.mod_eq_of_lt hlt]

theorem byteOf_toNat (w : Word) (k : Nat) : (byteOf w k).toNat = w.toNat / 2 ^ (8 * k) % 256 := by
  rw [byteOf, BitVec.toNat_setWidth, BitVec.toNat_ushiftRight, Nat.shiftRight_eq_div_pow]

theorem byteOf_messageWord (m : Memory) (j : Fin 16) {k : Nat} (hk : k < 8) :
    byteOf (messageWord m j) k = m.read (8 * j.val + k) := by
  have hlen : k < (m.bytes (8 * j.val) 8).length := by rwa [Memory.bytes_length]
  refine BitVec.eq_of_toNat_eq ?_
  rw [byteOf_toNat, messageWord_toNat, leNat_digit _ k hlen, Memory.bytes_getElem]

theorem memRead_messageWord (m : Memory) (j : Fin 16) : memRead m (8 * j.val) 8 = .ok (messageWord m j).toNat := by
  rw [memRead, if_pos (by omega), messageWord_toNat]

theorem messageWords_getElem (m : Memory) (j : Fin 16) : (messageWords m)[j] = messageWord m j := by
  simp [messageWords]

/-- Settles O17: the read is in range, and the bytes of a message word are the digits of its number (`leNat_digit`). -/
theorem messageWordsAreLittleEndian : Obligations.MessageWordsAreLittleEndian :=
  fun m j => ⟨messageWords_getElem m j, memRead_messageWord m j, fun _ => byteOf_messageWord m j⟩

end Sys2Proof.Machine
end

section
/-! SUPPORT. The mixing primitive (R143, R147): what `G` leaves in each word, that it reads and writes its four words only, and
that two calls on disjoint words commute. -/

namespace Sys2Proof.Machine

/-- Each of the eight statements (`g_statements`) writes one of the four words. -/
theorem g_getElem_other (v : Words16) {a b c d j : Fin 16} (x y : Word) (hj : j ∉ [a, b, c, d]) :
    (g v a b c d x y)[j] = v[j] := by
  simp only [List.mem_cons, List.not_mem_nil, or_false, not_or] at hj
  obtain ⟨ha, hb, hc, hd⟩ := hj
  obtain ⟨v1, v2, v3, v4, v5, v6, v7, v8, h1, h2, h3, h4, h5, h6, h7, h8, hg⟩ := g_statements v a b c d x y
  rw [hg, h8, Words16.set_other _ _ _ _ (Ne.symm hb), h7, Words16.set_other _ _ _ _ (Ne.symm hc),
    h6, Words16.set_other _ _ _ _ (Ne.symm hd), h5, Words16.set_other _ _ _ _ (Ne.symm ha),
    h4, Words16.set_other _ _ _ _ (Ne.symm hb), h3, Words16.set_other _ _ _ _ (Ne.symm hc),
    h2, Words16.set_other _ _ _ _ (Ne.symm hd), h1, Words16.set_other _ _ _ _ (Ne.symm ha)]

/-- Settles O20: the four words are read back through the eight statements (`g_statements`), where the distinct indices decide
which write each read sees; every other word is `g_getElem_other`. -/
theorem mixingPrimitiveResult : Obligations.MixingPrimitiveResult := by
  intro v a b c d x y hab hac had hbc hbd hcd a1 d1 c1 b1 a2 d2 c2 b2
  have hfour : (g v a b c d x y)[a] = a2 ∧ (g v a b c d x y)[b] = b2 ∧ (g v a b c d x y)[c] = c2 ∧
      (g v a b c d x y)[d] = d2 := by
    obtain ⟨v1, v2, v3, v4, v5, v6, v7, v8, h1, h2, h3, h4, h5, h6, h7, h8, hg⟩ := g_statements v a b c d x y
    simp only [hg, h8, h7, h6, h5, h4, h3, h2, h1, Words16.set_same, Words16.set_other, ne_eq, hab, hac, had, hbc, hbd,
      hcd, hab.symm, hac.symm, had.symm, hbc.symm, hbd.symm, hcd.symm, not_false_eq_true]
    exact ⟨rfl, rfl, rfl, rfl⟩
  obtain ⟨ha, hb, hc, hd⟩ := hfour
  exact ⟨ha, hb, hc, hd, fun j hja hjb hjc hjd => g_getElem_other v x y (by simp [hja, hjb, hjc, hjd])⟩

/-- What `G` leaves in a word depends on that word and on its four words alone. -/
theorem g_getElem_congr {v v' : Words16} {a b c d j : Fin 16} (x y : Word) (hq : [a, b, c, d].Nodup)
    (hwords : ∀ i ∈ [a, b, c, d], v[i] = v'[i]) (hj : v[j] = v'[j]) :
    (g v a b c d x y)[j] = (g v' a b c d x y)[j] := by
  simp only [List.nodup_cons, List.mem_cons, List.not_mem_nil, or_false, not_or] at hq
  obtain ⟨⟨hab, hac, had⟩, ⟨hbc, hbd⟩, hcd, -⟩ := hq
  obtain ⟨ha, hb, hc, hd, hother⟩ := mixingPrimitiveResult v a b c d x y hab hac had hbc hbd hcd
  obtain ⟨ha', hb', hc', hd', hother'⟩ := mixingPrimitiveResult v' a b c d x y hab hac had hbc hbd hcd
  simp only [List.mem_cons, List.not_mem_nil, or_false, forall_eq_or_imp, forall_eq] at hwords
  obtain ⟨hwa, hwb, hwc, hwd⟩ := hwords
  rw [hwa, hwb, hwc, hwd] at ha hb hc hd
  by_cases hja : j = a
  · rw [hja, ha, ha']
  by_cases hjb : j = b
  · rw [hjb, hb, hb']
  by_cases hjc : j = c
  · rw [hjc, hc, hc']
  by_cases hjd : j = d
  · rw [hjd, hd, hd']
  rw [hother j hja hjb hjc hjd, hother' j hja hjb hjc hjd, hj]

section
variable {a b c d a' b' c' d' j : Fin 16} (v : Words16) (x y x' y' : Word)

/-- In a word that the first of two disjoint calls does not own, the first might as well not have run. -/
theorem g_g_getElem_of_not_mem (hq' : [a', b', c', d'].Nodup) (hdisj : [a, b, c, d].Disjoint [a', b', c', d'])
    (hj : j ∉ [a, b, c, d]) :
    (g (g v a b c d x y) a' b' c' d' x' y')[j] = (g v a' b' c' d' x' y')[j] :=
  g_getElem_congr x' y' hq' (fun _ hi => g_getElem_other v x y fun h => hdisj h hi) (g_getElem_other v x y hj)

theorem g_comm (hq : [a, b, c, d].Nodup) (hq' : [a', b', c', d'].Nodup)
    (hdisj : [a, b, c, d].Disjoint [a', b', c', d']) :
    g (g v a b c d x y) a' b' c' d' x' y' = g (g v a' b' c' d' x' y') a b c d x y := by
  refine Vector.ext fun n hn => ?_
  change (g (g v a b c d x y) a' b' c' d' x' y')[(⟨n, hn⟩ : Fin 16)] =
    (g (g v a' b' c' d' x' y') a b c d x y)[(⟨n, hn⟩ : Fin 16)]
  by_cases hj : (⟨n, hn⟩ : Fin 16) ∈ [a, b, c, d]
  · rw [g_getElem_other _ _ _ (hdisj hj), g_g_getElem_of_not_mem _ _ _ _ _ hq hdisj.symm (hdisj hj)]
  · rw [g_g_getElem_of_not_mem _ _ _ _ _ hq' hdisj hj, g_getElem_other _ _ _ hj]

end

/-- The four words of a call. -/
def quadWords (q : Fin 16 × Fin 16 × Fin 16 × Fin 16) : List (Fin 16) := [q.1, q.2.1, q.2.2.1, q.2.2.2]

/-- The quadruples of R146: in each half round every call is on four distinct words, and two calls have none in common. -/
theorem halfRound_quads_disjoint :
    ∀ half ∈ ([[(0, 4, 8, 12), (1, 5, 9, 13), (2, 6, 10, 14), (3, 7, 11, 15)],
      [(0, 5, 10, 15), (1, 6, 11, 12), (2, 7, 8, 13), (3, 4, 9, 14)]] : List (List (Fin 16 × Fin 16 × Fin 16 × Fin 16))),
    ∀ q ∈ half, (quadWords q).Nodup ∧ ∀ q' ∈ half, q ≠ q' → ∀ i ∈ quadWords q, i ∉ quadWords q' := by
  decide

/-- Settles O21: the calls of a half round are on disjoint words, so they commute (`g_comm`). -/
theorem callsOfOneHalfRoundCommute : Obligations.CallsOfOneHalfRoundCommute := by
  intro half hhalf q hq q' hq' hne v x y x' y'
  obtain ⟨hnodup, hdisj⟩ := halfRound_quads_disjoint half hhalf q hq
  obtain ⟨hnodup', -⟩ := halfRound_quads_disjoint half hhalf q' hq'
  exact g_comm v x y x' y' hnodup hnodup' (hdisj q' hq' hne)

end Sys2Proof.Machine
end

section
/-! SUPPORT. The compression (R142, R144, R149, R150): its starting vector word by word, and what it reads and writes. -/

namespace Sys2Proof.Machine

theorem append_iv_getElem (h : Vector Word 8) {i : Nat} (hi : i < 8) : (h ++ iv)[i + 8] = iv[i] := by
  rw [Vector.getElem_append_right (by omega) (Nat.le_add_left 8 i)]
  rfl

/-- Only words 12, 13 and 14 of `h` followed by `IV` are changed before the first round. -/
theorem workingVector_getElem_other (h : Vector Word 8) (t0 t1 : Word) (last : Bool) {i : Nat} (hi : i < 16)
    (h12 : 12 ≠ i) (h13 : 13 ≠ i) (h14 : 14 ≠ i) : (workingVector h t0 t1 last)[i] = (h ++ iv)[i] := by
  cases last <;> simp [workingVector, h12, h13, h14]

theorem workingVector_getElem_12 (h : Vector Word 8) (t0 t1 : Word) (last : Bool) :
    (workingVector h t0 t1 last)[12] = iv[4] ^^^ t0 := by
  rw [← append_iv_getElem h (by decide)]
  cases last <;> simp [workingVector]

theorem workingVector_getElem_13 (h : Vector Word 8) (t0 t1 : Word) (last : Bool) :
    (workingVector h t0 t1 last)[13] = iv[5] ^^^ t1 := by
  rw [← append_iv_getElem h (by decide)]
  cases last <;> simp [workingVector]

/-- The last block's word is the complement of `IV[6]`. -/
theorem workingVector_getElem_14 (h : Vector Word 8) (t0 t1 : Word) (last : Bool) :
    (workingVector h t0 t1 last)[14] = if last then (0xE07C265404BE4294 : Word) else iv[6] := by
  rw [show (0xE07C265404BE4294 : Word) = ~~~ iv[6] from rfl, ← append_iv_getElem h (by decide)]
  cases last <;> simp [workingVector]

/-- Settles O22: the three changed words, and the others read from `h` followed by `IV` (`workingVector_getElem_other`). -/
theorem workingVectorAtStart : Obligations.WorkingVectorAtStart := by
  refine fun h t0 t1 last => ⟨fun i => ?_, fun i => ?_, workingVector_getElem_12 h t0 t1 last,
    workingVector_getElem_13 h t0 t1 last, workingVector_getElem_14 h t0 t1 last, ?_⟩
  · rw [workingVector_getElem_other h t0 t1 last _ (by omega) (by omega) (by omega)]
    exact Vector.getElem_append_left i.isLt
  · rw [workingVector_getElem_other h t0 t1 last _ (by omega) (by omega) (by omega)]
    exact append_iv_getElem h (by omega)
  · rw [workingVector_getElem_other h t0 t1 last _ (by decide) (by decide) (by decide)]
    exact append_iv_getElem h (by decide)

/-- Settles O23: the equation is the definition of `compress`, and the message words depend on the 128 bytes alone
(`messageWords_congr`). -/
theorem compressionWritesOnlyChainedState : Obligations.CompressionWritesOnlyChainedState := by
  refine ⟨fun last s => ⟨mixRounds (workingVector s.h s.t0 s.t1 last) (messageWords s.buf), rfl, rfl⟩,
    fun last s s' hh ht0 ht1 hbuf => ?_⟩
  rw [compress_h, compress_h, hh, ht0, ht1, messageWords_congr hbuf]

end Sys2Proof.Machine
end

section
/-! SUPPORT. FINAL as a whole (R171): the state it leaves field by field, and the bytes of the buffer that padding leaves alone. -/

namespace Sys2Proof.Machine

/-- Padding leaves every byte outside `filled..127` alone, canonical buffer or not. -/
theorem clearTail_read_other {m : Memory} {n : Byte} {a : Nat} (ha : a < n.toNat ∨ 128 ≤ a) :
    (clearTail m n).read a = m.read a :=
  Memory.read_clear_other (by omega)

/-- Inside the block, padding keeps exactly the bytes below `filled`. -/
theorem clearTail_read_block {m : Memory} {n : Byte} (h : m.wf = true) {j : Nat} (hj : j < 128) :
    (clearTail m n).read j = if j < n.toNat then m.read j else 0 := by
  rw [clearTail_read h]
  by_cases hn : j < n.toNat
  · rw [if_pos hn, if_neg (by omega)]
  · rw [if_neg hn, if_pos (by omega)]

@[simp] theorem finalDone_t0 (s : State) : (finalDone s).t0 = s.t0 + s.filled.setWidth 64 := rfl

/-- The carry is the comparison of R122. -/
theorem finalDone_t1 (s : State) : (finalDone s).t1 =
    if s.t0 + s.filled.setWidth 64 < s.filled.setWidth 64 then s.t1 + 1 else s.t1 := by
  rw [← if_congr counterCarry_eq_true_iff rfl rfl]
  exact ctrAdd_t1 s.filled s

/-- The compression reads the counter and the buffer that FINAL leaves: both are written before it. -/
theorem finalDone_h (s : State) : (finalDone s).h =
    compressWords s.h (finalDone s).t0 (finalDone s).t1 (messageWords (finalDone s).buf) true := rfl

@[simp] theorem finalDone_pending (s : State) : (finalDone s).pending = s.pending := rfl

/-- Settles O32: FINAL in ACTIVE completes with `finalDone`, read field by field. -/
theorem finalWholeCommand : Obligations.FinalWholeCommand := fun s hp hb =>
  ⟨finalDone s, execFinal_active hp, finalDone_t0 s, finalDone_t1 s, fun _ hj => clearTail_read_block hb hj,
    clearTail_wf hb, finalDone_h s, finalDone_filled s, finalDone_phase s, finalDone_outlen s, finalDone_pending s,
    finalDone_responses s⟩

/-- Settles O33: the only state FINAL goes on to is `finalDone`, whose buffer is the padded one (`clearTail_read_other`). -/
theorem finalFrame : Obligations.FinalFrame := by
  intro s t h
  obtain ⟨-, ht⟩ := execFinal_next h
  obtain rfl : t = finalDone s := ht
  exact ⟨finalDone_outlen s, finalDone_pending s, fun _ => clearTail_read_other⟩

end Sys2Proof.Machine
end

section
/-! SUPPORT. RDDIG as a whole (R174, R175): the digest byte by quotient and remainder of the index, and the answer in DONE with
and without a word that holds it. -/

namespace Sys2Proof.Machine

/-- `idx >> 3` and `idx and 7` are the word of the digest byte and its place in the word. -/
theorem digestByte_eq_map (h : Vector Word 8) (idx : Nat) :
    digestByte h idx = (h[idx / 8]?).map fun w => byteOf w (idx % 8) := by
  rw [digestByte, Nat.shiftRight_eq_div_pow, Nat.and_two_pow_sub_one_eq_mod idx 3]

theorem digestByte_eq_none {h : Vector Word 8} {idx : Nat} (hi : 64 ≤ idx) : digestByte h idx = none := by
  rw [digestByte_eq_map, Vector.getElem?_eq_none (by omega)]
  rfl

theorem execRddig_of_some {idx b : Byte} {s : State} (hp : s.phase = .done) (hi : idx.toNat < s.outlen.toNat)
    (hb : digestByte s.h idx.toNat = some b) : execRddig idx s = .next (respond .ok b s) := by
  rw [execRddig, inPhase_same hp, if_pos hi, hb]

theorem execRddig_of_none {idx : Byte} {s : State} (hp : s.phase = .done) (hi : idx.toNat < s.outlen.toNat)
    (hb : digestByte s.h idx.toNat = none) : execRddig idx s = .fault .chainedWord := by
  rw [execRddig, inPhase_same hp, if_pos hi, hb]

/-- Settles O34: below 64 the word `h[idx / 8]` exists and its byte is the response; an RDDIG outside DONE or at or past `outlen`
is not admitted (`exec_refused_of_not_admitted`). -/
theorem rddigRespondsDigestByte : Obligations.RddigRespondsDigestByte := by
  refine ⟨fun idx s hp hi h64 => ?_, fun idx s hout => exec_refused_of_not_admitted fun ⟨hp, hi⟩ => ?_⟩
  · have hw : s.h[idx.toNat / 8]? = some (s.h[idx.toNat / 8]'(by omega)) := Vector.getElem?_eq_getElem (by omega)
    exact ⟨_, hw, execRddig_of_some hp hi (by rw [digestByte_eq_map, hw]; rfl)⟩
  · exact hout.elim (absurd hp) (Nat.not_le_of_lt hi)

/-- Settles O35: an RDDIG that goes on only responds (`execRddig_next`); from index 64 on there is no word to read. -/
theorem rddigWritesNothing : Obligations.RddigWritesNothing := by
  refine ⟨fun idx s t h => ?_, fun idx s hp hi h64 => execRddig_of_none hp hi (digestByte_eq_none h64)⟩
  obtain ⟨-, -, b, -, rfl⟩ := execRddig_next h
  rfl

end Sys2Proof.Machine
end

section
/-! SUPPORT. Legal sequences (R194): the phase and output length that the automaton of `legalSeq` carries are those of the state. -/

namespace Sys2Proof.Machine

/-- The output length after an admitted command: only a successful INIT writes it (R104). -/
def outlenAfter (i : Instr) (o : Byte) : Byte :=
  match i with
  | .init outlen keylen _ => if paramsInvalid outlen keylen then o else outlen
  | .absorb _ => o
  | .final => o
  | .rddig _ => o

theorem exec_next_outlen {i : Instr} {s t : State} (h : exec i s = .next t) : t.outlen = outlenAfter i s.outlen := by
  obtain ⟨o, k, key, rfl, hv, rfl⟩ | ⟨o, k, key, rfl, hv, rfl⟩ | ⟨b, rfl, -, -, rfl⟩ | ⟨rfl, -, rfl⟩ |
    ⟨idx, b, rfl, -, -, rfl⟩ := exec_next h
  · simp [outlenAfter, hv]
  · simp [outlenAfter, hv]
  · exact absorbDone_outlen b s
  · exact finalDone_outlen s
  · exact respond_outlen .ok b s

/-- A legal sequence is an admitted command, and then one that is legal from where the command leads. -/
theorem legalSeq_cons (i : Instr) (is : List Instr) (s : State) :
    legalSeq s.phase s.outlen (i :: is) = true ↔
      Admitted i s ∧ legalSeq (phaseAfter i s.phase) (outlenAfter i s.outlen) is = true := by
  cases i with
  | init o k key => cases hv : paramsInvalid o k <;> simp [legalSeq, Admitted, phaseAfter, outlenAfter, hv]
  | absorb b => simp [legalSeq, Admitted, phaseAfter, outlenAfter]
  | final => simp [legalSeq, Admitted, phaseAfter, outlenAfter]
  | rddig idx => simp [legalSeq, Admitted, phaseAfter, outlenAfter]

theorem completes_execSeq_cons (i : Instr) (is : List Instr) (s : State) :
    Completes (execSeq (i :: is) s) ↔ ∃ t, exec i s = .next t ∧ Completes (execSeq is t) := by
  rw [execSeq]
  cases exec i s <;> simp [Completes]

/-- Settles O46, by induction on the sequence: the first command completes exactly when it is admitted, and leaves the invariant
together with the phase and output length that the rest is judged from. -/
theorem legalSequencesExactly : Obligations.LegalSequencesExactly := by
  intro is
  induction is with
  | nil => exact fun s _ => ⟨fun _ => rfl, fun _ => ⟨s, rfl⟩⟩
  | cons i is ih =>
    intro s h
    rw [completes_execSeq_cons, legalSeq_cons]
    constructor
    · rintro ⟨t, ht, hc⟩
      rw [← exec_next_phase ht, ← exec_next_outlen ht]
      exact ⟨admitted_of_exec_next ht, (ih t (exec_keeps_inv h ht)).mp hc⟩
    · rintro ⟨ha, hl⟩
      obtain ⟨t, ht⟩ := completes_of_admitted h ha
      rw [← exec_next_phase ht, ← exec_next_outlen ht] at hl
      exact ⟨t, ht, (ih t (exec_keeps_inv h ht)).mpr hl⟩

end Sys2Proof.Machine
end

section
/-! SUPPORT. HASH with an illegal parameter (R193). -/

namespace Sys2Proof.Machine

@[simp] theorem lastCode_respond (c : RspCode) (d : Byte) (s : State) : lastCode (respond c d s) = some c := by
  simp [lastCode]

/-- Settles O53: the length field carries a key length up to 255 whole, so INIT raises its exception, and HASH stops at the code. -/
theorem hashPropagatesInvalidParameter : Obligations.HashPropagatesInvalidParameter := by
  intro o key d s hlen hbad
  have hk : (BitVec.ofNat 8 key.length).toNat = key.length := byte_ofNat_toNat (by omega)
  have hinit : exec (hashInit o key) s = .next (raiseInvalidParameter s) :=
    execInit_invalid _ s (paramsInvalid_iff.mpr (by rwa [hk]))
  have hcode : lastCode (raiseInvalidParameter s) = some .invalidParameter := lastCode_respond _ _ s
  simp only [execHash, hinit, hcode, if_true]
  rfl

end Sys2Proof.Machine
end

section
/-! SUPPORT. The counter's two words as the halves of the number (R22), and the carry at 2^64 bytes (R200). -/

namespace Sys2Proof.Machine

/-- The counter words that hold `n` modulo 2^128. -/
theorem words_of_counter {s : State} {n : Nat} (h : s.counter = n % 2 ^ 128) :
    s.t0 = BitVec.ofNat 64 n ∧ s.t1 = BitVec.ofNat 64 (n / 2 ^ 64) := by
  have h0 := s.t0.isLt
  have h1 := s.t1.isLt
  rw [State.counter] at h
  constructor
  · refine BitVec.eq_of_toNat_eq ?_
    rw [BitVec.toNat_ofNat]
    omega
  · refine BitVec.eq_of_toNat_eq ?_
    rw [BitVec.toNat_ofNat]
    omega

/-- FINAL counts the bytes that wait in the buffer (R171). -/
theorem finalDone_counter (s : State) : (finalDone s).counter = (s.counter + s.filled.toNat) % 2 ^ 128 :=
  ctrAdd_counter s.filled s

/-- FINAL's counter is the number of bytes absorbed (R172). -/
theorem Absorbed.finalDone_counter {n : Nat} {s : State} (h : Absorbed n s) : (finalDone s).counter = n % 2 ^ 128 :=
  (Machine.finalDone_counter s).trans h.counter_add_filled

/-- Settles O49: what has been counted is a function of the number of bytes (`absorbed_update`): 2^64 - 128 after 2^64 bytes, and
2^64 after the next ABSORB or FINAL. -/
theorem carryIntoTheHighWord : Obligations.CarryIntoTheHighWord := by
  intro o key d s ho1 ho64 hd
  obtain ⟨t, ht, ha⟩ := absorbed_update (absorbed_initDone o 0 key s) d
  replace ha : Absorbed (2 ^ 64) t := by
    rw [hd] at ha
    exact ha
  have hinit : exec (.init o 0 key) s = .next (initDone o 0 key s) :=
    exec_init_valid key s ho1 ho64 (Nat.zero_le 64)
  have hwords := words_of_counter ha.counter
  have habsorb (b : Byte) := words_of_counter (absorbed_absorbDone ha b).counter
  have hfinal := words_of_counter ha.finalDone_counter
  exact ⟨t, (execSeq_cons_next hinit).trans ht, hwords.1, hwords.2, BitVec.eq_of_toNat_eq ha.filled,
    fun b => ⟨absorbDone b t, execAbsorb_active b ha.phase ha.filled_le, (habsorb b).1, (habsorb b).2⟩,
    finalDone t, execFinal_active ha.phase, hfinal.1, hfinal.2⟩

end Sys2Proof.Machine
end

section
/-! SUPPORT. The function stated without the buffer (R198): its bytes and blocks, read at an index; a block is fixed as soon as
its last byte is known. -/

namespace Sys2Proof.Machine

theorem hashedBytes_eq_append (key d : List Byte) : hashedBytes key d = hashedBytes key [] ++ d := by
  rw [hashedBytes, hashedBytes, List.append_nil]

theorem zeroPadded_length {bs : List Byte} (h : bs.length ≤ 128) : (zeroPadded bs).length = 128 := by
  rw [zeroPadded, List.length_append, List.length_replicate]
  omega

theorem zeroPadded_getD (bs : List Byte) (j : Nat) : ((zeroPadded bs)[j]?).getD 0 = (bs[j]?).getD 0 := by
  rw [zeroPadded, List.getElem?_append]
  split
  · rfl
  · rename_i h
    rw [List.getElem?_eq_none (Nat.le_of_not_lt h), List.getElem?_replicate]
    split <;> rfl

/-- The key block is there when there is a key. -/
theorem hashedBytes_nil_length {key : List Byte} (h : key.length ≤ 128) :
    (hashedBytes key []).length = if 0 < key.length then 128 else 0 := by
  cases key with
  | nil => rfl
  | cons b bs => simp [hashedBytes, zeroPadded_length h]

theorem hashedBytes_nil_getD (key : List Byte) (j : Nat) :
    ((hashedBytes key [])[j]?).getD 0 = (key[j]?).getD 0 := by
  cases key with
  | nil => rfl
  | cons b bs => simpa [hashedBytes] using zeroPadded_getD (b :: bs) j

/-- The last block's number. -/
theorem blockCount_sub_one (L : Nat) : blockCount L - 1 = (L - 1) / 128 := by
  rw [blockCount]
  split <;> omega

/-- Bytes `a..a+n-1` of the buffer are those of a list that reads like it there. -/
theorem Memory.bytes_eq_of_read {m : Memory} {l : List Byte} {a n : Nat} (hl : a + n ≤ l.length)
    (h : ∀ j, a ≤ j → j < a + n → m.read j = (l[j]?).getD 0) : m.bytes a n = (l.drop a).take n := by
  refine List.ext_getElem ?_ fun j hj _ => ?_
  · rw [Memory.bytes_length, List.length_take, List.length_drop]
    omega
  · rw [Memory.bytes_length] at hj
    rw [Memory.bytes_getElem, h (a + j) (by omega) (by omega), List.getElem?_eq_getElem (by omega), List.getElem_take,
      List.getElem_drop]
    rfl

/-- A buffer that holds block `k`, zeros past the end of the bytes, is compressed as block `k`. -/
theorem messageWords_eq_blockWords {m : Memory} {D : List Byte} {k : Nat}
    (h : ∀ j, j < 128 → m.read j = (D[128 * k + j]?).getD 0) : messageWords m = blockWords D k := by
  have hlen : ((D.drop (128 * k)).take 128).length ≤ 128 := List.length_take_le _ _
  have hword : ∀ j : Fin 16, messageWord m j = le64 (zeroPadded ((D.drop (128 * k)).take 128)) j.val := fun j => by
    rw [messageWord, le64, Memory.bytes_eq_of_read (by rw [zeroPadded_length hlen]; omega) fun a _ ha => ?_]
    rw [h a (by omega), zeroPadded_getD, List.getElem?_take_of_lt (by omega), List.getElem?_drop]
  rw [messageWords, blockWords, funext hword]

/-- A whole block does not change when bytes are appended. -/
theorem blockWords_append {D E : List Byte} {k : Nat} (h : 128 * (k + 1) ≤ D.length) :
    blockWords (D ++ E) k = blockWords D k := by
  have htake : ((D ++ E).drop (128 * k)).take 128 = (D.drop (128 * k)).take 128 := by
    rw [List.drop_append_of_le_length (by omega), List.take_append_of_le_length (by rw [List.length_drop]; omega)]
  rw [blockWords, blockWords, htake]

theorem chainBlocks_append (h : Vector Word 8) {D E : List Byte} {n : Nat} (hn : 128 * n ≤ D.length) :
    chainBlocks h (D ++ E) n = chainBlocks h D n := by
  induction n with
  | zero => rfl
  | succ n ih => rw [chainBlocks, chainBlocks, ih (by omega), blockWords_append hn]

end Sys2Proof.Machine
end

section
/-! SUPPORT. The commands against the function of R198: while absorbing, the chained state is that of the blocks pushed out, and
the buffer holds the block that waits. -/

namespace Sys2Proof.Machine

/-- A context that began with the chained state `h0` and has taken the bytes `D`, the key block among them. -/
structure Hashing (h0 : Vector Word 8) (D : List Byte) (s : State) : Prop where
  absorbed : Absorbed D.length s
  bufCanonical : s.buf.wf = true
  h : s.h = chainBlocks h0 D ((D.length - 1) / 128)
  waiting : ∀ j, j < s.filled.toNat → s.buf.read j = (D[128 * ((D.length - 1) / 128) + j]?).getD 0

/-- INIT has taken the key block, which waits in the buffer (R106). -/
theorem hashing_initDone (o : Byte) {key : List Byte} (s : State) (hk : key.length ≤ 64) :
    Hashing (initialState o (BitVec.ofNat 8 key.length)) (hashedBytes key [])
      (initDone o (BitVec.ofNat 8 key.length) (keyOperand key) s) := by
  have hlen : (BitVec.ofNat 8 key.length).toNat = key.length := byte_ofNat_toNat (by omega)
  have hD := hashedBytes_nil_length (key := key) (by omega)
  have hfirst : ((hashedBytes key []).length - 1) / 128 = 0 := by
    rw [hD]
    split <;> rfl
  refine ⟨?_, initDone_buf_wf _ s (by omega), ?_, fun j _ => ?_⟩
  · have habsorbed := absorbed_initDone o (BitVec.ofNat 8 key.length) (keyOperand key) s
    rwa [hlen, ← hD] at habsorbed
  · rw [hfirst, chainBlocks, initDone_h]
  · rw [hfirst, Nat.mul_zero, Nat.zero_add, hashedBytes_nil_getD, initDone_buf, keyBytes_keyOperand hk,
      Memory.read_writeBytes Memory.wf_zeroed (by omega), if_pos (Nat.zero_le j)]
    rfl

section
variable {h0 : Vector Word 8} {D : List Byte} {s : State} (hs : Hashing h0 D s)
include hs

/-- What a full buffer is compressed to: the chained state with one block more. -/
theorem Hashing.flushFull_h (hf : s.filled = 128) :
    (flushFull s).h = chainBlocks h0 D ((D.length - 1) / 128 + 1) := by
  have hn := hs.absorbed.filled
  rw [filled_eq_128.mp hf] at hn
  have hcounter : (ctrAdd 128 s).counter = 128 * ((D.length - 1) / 128 + 1) % 2 ^ 128 := by
    rw [ctrAdd_counter, hs.absorbed.counter, Nat.mod_add_mod, Nat.mul_succ]
    rfl
  obtain ⟨ht0, ht1⟩ := words_of_counter hcounter
  have hblock : messageWords s.buf = blockWords D ((D.length - 1) / 128) :=
    messageWords_eq_blockWords fun j hj => hs.waiting j (by rwa [filled_eq_128.mp hf])
  rw [flushFull_of_full hf, chainBlocks, compressAt, ← ht0, ← ht1, ← hblock, ← hs.h]
  rfl

/-- With room made, the chained state is that of the whole blocks taken, and the bytes past them wait. -/
theorem Hashing.after_flushFull :
    (flushFull s).h = chainBlocks h0 D (D.length / 128) ∧ (flushFull s).filled.toNat = D.length % 128 ∧
      ∀ j, j < D.length % 128 → s.buf.read j = (D[128 * (D.length / 128) + j]?).getD 0 := by
  have hn := hs.absorbed.filled
  by_cases hf : s.filled = 128
  · rw [filled_eq_128.mp hf] at hn
    have hq : (D.length - 1) / 128 + 1 = D.length / 128 := by omega
    have hr : D.length % 128 = 0 := by omega
    rw [hs.flushFull_h hf, hq, hr, flushFull_of_full hf]
    exact ⟨rfl, rfl, fun j hj => absurd hj (Nat.not_lt_zero j)⟩
  · rw [flushFull_of_not_full hf]
    rw [filled_eq_128] at hf
    have hq : (D.length - 1) / 128 = D.length / 128 := by omega
    have hr : s.filled.toNat = D.length % 128 := by omega
    rw [← hq, ← hr]
    exact ⟨hs.h, rfl, hs.waiting⟩

/-- ABSORB takes one byte more: it is appended to the waiting block, or begins the next one (R121, R125). -/
theorem hashing_absorbDone (b : Byte) : Hashing h0 (D ++ [b]) (absorbDone b s) := by
  obtain ⟨hh, hroom, hwait⟩ := hs.after_flushFull
  have hlen : (D ++ [b]).length = D.length + 1 := List.length_append
  have hq : ((D ++ [b]).length - 1) / 128 = D.length / 128 := by rw [hlen, Nat.add_sub_cancel]
  refine ⟨?_, Memory.wf_write hs.bufCanonical (flushFull_filled_lt hs.absorbed.filled_le), ?_, fun j hj => ?_⟩
  · rw [hlen]
    exact absorbed_absorbDone hs.absorbed b
  · rw [hq, chainBlocks_append h0 (Nat.mul_div_le _ _), ← hh]
    rfl
  · rw [absorbDone_filled_toNat b hs.absorbed.filled_le, hroom] at hj
    rw [hq, absorbDone_buf, hroom, Memory.read_write hs.bufCanonical]
    split
    · rename_i hlast
      rw [hlast, Nat.div_add_mod, List.getElem?_concat_length]
      rfl
    · rename_i hold
      rw [List.getElem?_append_left (by omega), hwait j (by omega)]

/-- FINAL leaves the chained state of all the bytes, the last block padded (R171, R198). -/
theorem Hashing.finalDone_h : (finalDone s).h =
    compressAt (chainBlocks h0 D (blockCount D.length - 1)) D.length (blockWords D (blockCount D.length - 1)) true := by
  obtain ⟨ht0, ht1⟩ := words_of_counter hs.absorbed.finalDone_counter
  have hn := hs.absorbed.filled
  have hblock : messageWords (finalDone s).buf = blockWords D ((D.length - 1) / 128) := by
    refine messageWords_eq_blockWords fun j hj => ?_
    rw [finalDone_buf, clearTail_read_block hs.bufCanonical hj]
    split
    · rename_i hj'
      exact hs.waiting j hj'
    · rw [List.getElem?_eq_none (by omega)]
      rfl
  rw [Machine.finalDone_h, ht0, ht1, hblock, hs.h, blockCount_sub_one, compressAt]

end

/-! ### The commands of a message, one after the other -/

/-- The state that the ABSORBs of a message leave. -/
def absorbAll (d : List Byte) (s : State) : State := d.foldl (fun s b => absorbDone b s) s

@[simp] theorem absorbAll_nil (s : State) : absorbAll [] s = s := rfl

@[simp] theorem absorbAll_cons (b : Byte) (d : List Byte) (s : State) :
    absorbAll (b :: d) s = absorbAll d (absorbDone b s) := rfl

@[simp] theorem absorbAll_outlen (d : List Byte) (s : State) : (absorbAll d s).outlen = s.outlen := by
  induction d generalizing s with
  | nil => rfl
  | cons b d ih => rw [absorbAll_cons, ih, absorbDone_outlen]

/-- One OK for each byte (R79). -/
@[simp] theorem absorbAll_responses (d : List Byte) (s : State) :
    (absorbAll d s).responses = s.responses ++ List.replicate d.length { code := .ok, data := 0 } := by
  induction d generalizing s with
  | nil => exact (List.append_nil _).symm
  | cons b d ih =>
    rw [absorbAll_cons, ih, absorbDone_responses, List.length_cons, List.replicate_succ, List.append_assoc]
    rfl

/-- UPDATE takes the bytes of its message. -/
theorem hashing_update {h0 : Vector Word 8} {D : List Byte} {s : State} (hs : Hashing h0 D s) (d : List Byte) :
    execSeq (update d) s = .next (absorbAll d s) ∧ Hashing h0 (D ++ d) (absorbAll d s) := by
  induction d generalizing D s with
  | nil =>
    rw [List.append_nil]
    exact ⟨rfl, hs⟩
  | cons b d ih =>
    obtain ⟨hrun, hrest⟩ := ih (hashing_absorbDone hs b)
    have hb : exec (.absorb b) s = .next (absorbDone b s) :=
      execAbsorb_active b hs.absorbed.phase hs.absorbed.filled_le
    rw [List.append_assoc] at hrest
    exact ⟨(execSeq_cons_next hb).trans hrun, hrest⟩

/-- The state that INIT leaves for a key of at most 64 bytes. -/
def keyedInit (o : Byte) (key : List Byte) (s : State) : State :=
  initDone o (BitVec.ofNat 8 key.length) (keyOperand key) s

/-- The state that INIT, UPDATE of a message and FINAL leave. -/
def hashDone (o : Byte) (key d : List Byte) (s : State) : State := finalDone (absorbAll d (keyedInit o key s))

section
variable {o : Byte} {key : List Byte} (ho1 : 1 ≤ o.toNat) (ho64 : o.toNat ≤ 64) (hk : key.length ≤ 64)

section
include hk

theorem hashing_message (o : Byte) (d : List Byte) (s : State) :
    execSeq (update d) (keyedInit o key s) = .next (absorbAll d (keyedInit o key s)) ∧
      Hashing (initialState o (BitVec.ofNat 8 key.length)) (hashedBytes key d) (absorbAll d (keyedInit o key s)) := by
  rw [hashedBytes_eq_append]
  exact hashing_update (hashing_initDone o s hk) d

/-- The chained state is that of the function stated without the buffer (R198). -/
theorem hashDone_h (o : Byte) (d : List Byte) (s : State) : (hashDone o key d s).h = hashState o key d :=
  (hashing_message hk o d s).2.finalDone_h

/-- The counter of the final compression is the number of bytes hashed (R172). -/
theorem hashDone_counter (o : Byte) (d : List Byte) (s : State) :
    (hashDone o key d s).counter = (hashedBytes key d).length % 2 ^ 128 :=
  (hashing_message hk o d s).2.absorbed.finalDone_counter

theorem execSeq_update_final (o : Byte) (d : List Byte) (s : State) :
    execSeq (update d ++ [.final]) (keyedInit o key s) = .next (hashDone o key d s) := by
  obtain ⟨hrun, hs⟩ := hashing_message hk o d s
  rw [execSeq_append hrun, execSeq_cons_next (i := .final) (execFinal_active hs.absorbed.phase), execSeq, hashDone]

end

section
include ho1 ho64 hk

theorem exec_hashInit (s : State) : exec (hashInit o key) s = .next (keyedInit o key s) :=
  exec_init_valid _ s ho1 ho64 (by rwa [byte_ofNat_toNat (by omega)])

theorem execSeq_hash (d : List Byte) (s : State) :
    execSeq (hashInit o key :: (update d ++ [.final])) s = .next (hashDone o key d s) := by
  rw [execSeq_cons_next (exec_hashInit ho1 ho64 hk s), execSeq_update_final hk]

end

end

@[simp] theorem hashDone_phase (o : Byte) (key d : List Byte) (s : State) : (hashDone o key d s).phase = .done := rfl

@[simp] theorem hashDone_outlen (o : Byte) (key d : List Byte) (s : State) : (hashDone o key d s).outlen = o :=
  absorbAll_outlen d (keyedInit o key s)

/-- One OK for INIT, one for each byte and one for FINAL (R79). -/
@[simp] theorem hashDone_responses (o : Byte) (key d : List Byte) (s : State) : (hashDone o key d s).responses =
    s.responses ++ List.replicate (d.length + 2) { code := .ok, data := 0 } := by
  rw [hashDone, finalDone_responses, absorbAll_responses, keyedInit, initDone_responses, List.replicate_succ',
    List.replicate_succ]
  simp

/-- Settles O50: the invariant `Hashing` holds after INIT (`hashing_initDone`), each ABSORB keeps it (`hashing_absorbDone`), and
FINAL compresses what it says still waits (`Hashing.finalDone_h`). -/
theorem hashLeavesTheStatedChainedState : Obligations.HashLeavesTheStatedChainedState := fun o key d s ho1 ho64 hk =>
  ⟨hashDone o key d s, execSeq_hash ho1 ho64 hk d s, hashDone_h hk o d s, hashDone_phase o key d s,
    hashDone_outlen o key d s, hashDone_counter hk o d s⟩

/-- The UPDATEs of the chunks are the same commands as one UPDATE of the whole message. -/
theorem flatMap_update (chunks : List (List Byte)) : chunks.flatMap update = update chunks.flatten :=
  List.map_flatten.symm

/-- Settles O47: the two sequences are the same list of commands (`flatMap_update`), and the state they leave is that of O50. -/
theorem chunkingIsEquivalent : Obligations.ChunkingIsEquivalent := by
  intro o key chunks s ho1 ho64 hk
  have hrun := execSeq_hash ho1 ho64 hk chunks.flatten s
  rw [flatMap_update]
  exact ⟨_, hrun, hrun, hashDone_h hk o chunks.flatten s, hashDone_phase o key chunks.flatten s,
    hashDone_outlen o key chunks.flatten s⟩

end Sys2Proof.Machine
end

section
/-! SUPPORT. DIGEST and HASH (R191, R192, R197): the reads give the serialized bytes in their order. -/

namespace Sys2Proof.Machine

/-- Byte `n` of words written out least significant byte first is byte `n mod 8` of word `n / 8`. -/
theorem wordBytes_getElem? (ws : List Word) (n : Nat) :
    (ws.flatMap fun w => (List.range 8).map (byteOf w))[n]? = (ws[n / 8]?).map fun w => byteOf w (n % 8) := by
  induction ws generalizing n with
  | nil => simp
  | cons w ws ih =>
    have hlen : ((List.range 8).map (byteOf w)).length = 8 := by simp
    rw [List.flatMap_cons]
    by_cases hn : n < 8
    · rw [List.getElem?_append_left (by rwa [hlen]), Nat.div_eq_of_lt hn, Nat.mod_eq_of_lt hn]
      simp [hn]
    · rw [List.getElem?_append_right (by omega), hlen, ih, Nat.mod_eq_sub_mod (Nat.le_of_not_lt hn),
        show n / 8 = (n - 8) / 8 + 1 by omega, List.getElem?_cons_succ]

/-- The digest byte of an index is the byte of the serialized state at it (R174). -/
theorem serialize_succ {h : Vector Word 8} {n : Nat} {b : Byte} (hb : digestByte h n = some b) :
    serialize h (n + 1) = serialize h n ++ [b] := by
  rw [digestByte_eq_map, ← Vector.getElem?_toList, ← wordBytes_getElem?] at hb
  rw [serialize, List.take_add_one, hb]
  rfl

theorem serialize_length (h : Vector Word 8) {n : Nat} (hn : n ≤ 64) : (serialize h n).length = n := by
  induction n with
  | zero => rfl
  | succ n ih =>
    obtain ⟨b, hb⟩ := digestByte_of_lt h (idx := n) (by omega)
    rw [serialize_succ hb, List.length_append, ih (by omega)]
    rfl

/-- The state that the first `n` reads of DIGEST leave. -/
def digestRead (n : Nat) (s : State) : State :=
  { s with responses := s.responses ++ (serialize s.h n).map fun b => { code := .ok, data := b } }

theorem digestRead_zero (s : State) : digestRead 0 s = s := by simp [digestRead, serialize]

/-- One read more. -/
theorem digestRead_succ {s : State} {n : Nat} {b : Byte} (hb : digestByte s.h n = some b) :
    digestRead (n + 1) s = respond .ok b (digestRead n s) := by
  simp [digestRead, respond, serialize_succ hb]

theorem execSeq_reads {s : State} (hp : s.phase = .done) (h64 : s.outlen.toNat ≤ 64) {n : Nat}
    (hn : n ≤ s.outlen.toNat) :
    execSeq ((List.range n).map fun i => .rddig (BitVec.ofNat 8 i)) s = .next (digestRead n s) := by
  induction n with
  | zero => rw [digestRead_zero, List.range_zero, List.map_nil, execSeq]
  | succ n ih =>
    obtain ⟨b, hb⟩ := digestByte_of_lt s.h (idx := n) (by omega)
    have hidx : (BitVec.ofNat 8 n).toNat = n := byte_ofNat_toNat (by omega)
    have hread : exec (.rddig (BitVec.ofNat 8 n)) (digestRead n s) = .next (digestRead (n + 1) s) := by
      rw [digestRead_succ hb]
      exact execRddig_of_some hp (hidx.symm ▸ hn) (hidx.symm ▸ hb)
    rw [List.range_succ, List.map_append, execSeq_append (ih (by omega)), List.map_singleton,
      execSeq_cons_next hread, execSeq]

/-- Settles O51: each read gives the next byte of the serialized state (`serialize_succ`). -/
theorem digestReadsTheSerializedState : Obligations.DigestReadsTheSerializedState :=
  fun s hp h64 => ⟨serialize_length s.h h64, execSeq_reads hp h64 le_rfl⟩

theorem execHash_valid {o : Byte} {key : List Byte} (ho1 : 1 ≤ o.toNat) (ho64 : o.toNat ≤ 64) (hk : key.length ≤ 64)
    (d : List Byte) (s : State) :
    execHash o key d s = execSeq (digestReads o) (hashDone o key d s) := by
  have hcode : lastCode (keyedInit o key s) ≠ some .invalidParameter := by
    rw [keyedInit, initDone, lastCode_respond]
    decide
  simp only [execHash, exec_hashInit ho1 ho64 hk, if_neg hcode]
  exact execSeq_append (execSeq_update_final hk o d s)

/-- Settles O52: HASH is DIGEST (O51) in the state of O50. -/
theorem hashRespondsWithTheDigest : Obligations.HashRespondsWithTheDigest := by
  intro o key d s ho1 ho64 hk
  obtain ⟨hlen, hreads⟩ := digestReadsTheSerializedState (hashDone o key d s) (hashDone_phase o key d s)
    (by rwa [hashDone_outlen])
  rw [hashDone_outlen, hashDone_h hk] at hlen hreads
  refine ⟨hlen, _, (execHash_valid ho1 ho64 hk d s).trans hreads, ?_⟩
  rw [hashDone_responses]
  rfl

/-- The unkeyed digest of "abc" begins ba80a53f (S2). -/
theorem abc_unkeyed_prefix : (hashDigest 64 [] [0x61, 0x62, 0x63]).take 4 = [0xBA, 0x80, 0xA5, 0x3F] := by decide +kernel

/-- The digest of "abc" under the key "k" begins aa65cf29. -/
theorem abc_keyed_prefix : (hashDigest 64 [0x6B] [0x61, 0x62, 0x63]).take 4 = [0xAA, 0x65, 0xCF, 0x29] := by
  decide +kernel

/-- Settles O55: the digests differ in their first byte, and the initial states in the key length of the parameter block. -/
theorem keyedModeChangesTheDigest : Obligations.KeyedModeChangesTheDigest := by
  refine ⟨fun h => ?_, abc_keyed_prefix, abc_unkeyed_prefix, by decide, by decide +kernel, by decide +kernel⟩
  have hprefix := abc_keyed_prefix
  rw [h, abc_unkeyed_prefix] at hprefix
  exact absurd hprefix (by decide)

end Sys2Proof.Machine
end

section
/-! SUPPORT. The one exception (R210, R211): the code of the latest response tells it, and how many of the INIT words raise it. -/

namespace Sys2Proof.Machine

/-- The latest response of a command that completes is the exception's exactly for an INIT whose parameter check fails. -/
theorem lastCode_invalidParameter_iff {i : Instr} {s t : State} (h : exec i s = .next t) :
    lastCode t = some .invalidParameter ↔ ∃ o k key, i = .init o k key ∧ paramsInvalid o k = true := by
  obtain ⟨r, hr, hcode, -⟩ := exec_next_response h
  rw [← hcode, lastCode, hr, List.getLast?_concat, Option.map_some, Option.some_inj]

theorem count_congr {p q : Nat → Prop} [DecidablePred p] [DecidablePred q] {N : Nat} (h : ∀ n, n < N → (p n ↔ q n)) :
    Nat.count p N = Nat.count q N :=
  le_antisymm (Nat.count_mono_left fun n hn => (h n hn).mp) (Nat.count_mono_left fun n hn => (h n hn).mpr)

/-- Of two conditions of which exactly one holds at each number below `N`, the counts add up to `N`. -/
theorem count_add_count_of_iff_not {p q : Nat → Prop} [DecidablePred p] [DecidablePred q] {N : Nat}
    (h : ∀ n, n < N → (p n ↔ ¬ q n)) : Nat.count p N + Nat.count q N = N := by
  rw [count_congr h, Nat.count_eq_card_filter_range, Nat.count_eq_card_filter_range, Nat.add_comm,
    Finset.card_filter_add_card_filter_not, Finset.card_range]

/-- Over `n` rows of `m` numbers, a condition on the place in the row and one on the row are counted apart and multiplied. -/
theorem count_mod_and_div (p q : Nat → Prop) [DecidablePred p] [DecidablePred q] {m : Nat} (hm : 0 < m) (n : Nat) :
    Nat.count (fun x => p (x % m) ∧ q (x / m)) (m * n) = Nat.count p m * Nat.count q n := by
  induction n with
  | zero => simp
  | succ n ih =>
    have hrow : Nat.count (fun x => p ((m * n + x) % m) ∧ q ((m * n + x) / m)) m = Nat.count (fun x => p x ∧ q n) m :=
      count_congr fun x hx => by
        rw [Nat.mul_add_mod, Nat.mod_eq_of_lt hx, Nat.mul_add_div hm, Nat.div_eq_of_lt hx, Nat.add_zero]
    rw [Nat.mul_succ, Nat.count_add, ih, hrow, Nat.count_succ, Nat.mul_add]
    by_cases hq : q n <;> simp [hq]

/-- An `outlen` of 1 to 64 and a `keylen` of 0 to 64 are legal. -/
theorem count_legal_parameters :
    Nat.count (fun n => paramsInvalid (BitVec.ofNat 8 n) (BitVec.ofNat 8 (n / 256)) = false) 65536 = 4160 := by
  have hout : Nat.count (fun o => 1 ≤ o ∧ o < 65) 256 = 64 := count_interval (by decide) fun _ _ => Iff.rfl
  have hkey : Nat.count (fun k => k < 65) 256 = 65 := count_interval (lo := 0) (hi := 65) (by decide) fun _ _ => by omega
  have hpairs : Nat.count (fun n => (1 ≤ n % 256 ∧ n % 256 < 65) ∧ n / 256 < 65) 65536 = 4160 := by
    rw [show 65536 = 256 * 256 from rfl, count_mod_and_div (fun o => 1 ≤ o ∧ o < 65) (· < 65) (by decide), hout, hkey]
  refine (count_congr fun n hn => ?_).trans hpairs
  rw [paramsValid_iff, BitVec.toNat_ofNat, BitVec.toNat_ofNat]
  omega

/-- The INIT words that raise the exception are all the others. -/
theorem count_illegal_parameters :
    Nat.count (fun n => paramsInvalid (BitVec.ofNat 8 n) (BitVec.ofNat 8 (n / 256)) = true) 65536 = 61376 := by
  have h := count_add_count_of_iff_not (N := 65536) fun n _ =>
    Bool.eq_false_iff (b := paramsInvalid (BitVec.ofNat 8 n) (BitVec.ofNat 8 (n / 256)))
  rw [count_legal_parameters] at h
  omega

/-- Settles O28: the code of the one response (`lastCode_invalidParameter_iff`), and the two counts. -/
theorem onlyInitRaisesInvalidParameter : Obligations.OnlyInitRaisesInvalidParameter := by
  refine ⟨fun i s t h => ?_, count_legal_parameters, count_illegal_parameters⟩
  simpa only [lastCode, paramsInvalid_iff] using lastCode_invalidParameter_iff h

end Sys2Proof.Machine
end

section
/-! SUPPORT. What gives no new state: a step with nothing presented (R224), and the refused commands (R217). -/

namespace Sys2Proof.Machine

theorem step_nothing_pending {s : State} (h : s.pending = []) : step s = .next s := by
  simp only [step, h]

/-- Settles O3: the step's own case of an empty port. -/
theorem contextHeldBetweenCommands : Obligations.ContextHeldBetweenCommands := fun _ => step_nothing_pending

theorem execRddig_past_outlen {idx : Byte} {s : State} (hp : s.phase = .done) (hi : s.outlen.toNat ≤ idx.toNat) :
    execRddig idx s = .refused .indexBeyondOutlen :=
  (inPhase_same hp).trans (if_neg (Nat.not_lt.mpr hi))

/-- Settles O37: the decoder's refusal is the step's, the phase check comes first in ABSORB, FINAL and RDDIG, and RDDIG's index
check second. -/
theorem refusedCommandsHaveNoStep : Obligations.RefusedCommandsHaveNoStep :=
  ⟨fun _ _ _ _ => step_reserved, fun _ _ => inPhase_other, fun _ => inPhase_other, fun _ _ => inPhase_other,
    fun _ _ => execRddig_past_outlen⟩

end Sys2Proof.Machine
end

section
/-! SUPPORT. Reset (R36, R240), and the registers it leaves unspecified, which nothing reads before an INIT or another reset has
written them (R241). -/

namespace Sys2Proof.Machine

theorem step_reset {s : State} {rest : List PortInput} (h : s.pending = .reset :: rest) :
    step s = .next (applyReset (takeInput rest s)) := by
  simp only [step, h]

/-- Settles O1: reset writes the phase and neither of the port's two lists. -/
theorem resetLeavesPhaseIdle : Obligations.ResetLeavesPhaseIdle :=
  ⟨rfl, fun s rest h => ⟨applyReset (takeInput rest s), step_reset h, rfl, rfl, rfl⟩⟩

/-- Reset overwrites the whole context, so what it leaves depends on the port's two lists only. -/
theorem applyReset_congr {s s' : State} (hp : s.pending = s'.pending) (hr : s.responses = s'.responses) :
    applyReset s = applyReset s' := by
  rw [applyReset, applyReset, hp, hr]

/-! ### Related outcomes -/

section
variable {R : State → State → Prop}

theorem OutcomesRelated.refl (hR : ∀ s, R s s) (o : Host.Outcome State Fault Refusal) : OutcomesRelated R o o := by
  cases o with
  | next s => exact hR s
  | fault f => exact rfl
  | refused r => exact rfl

/-- A relation that every step keeps is kept by a run of any length. -/
theorem run_related (hstep : ∀ s s', R s s' → OutcomesRelated R (step s) (step s')) (n : Nat) {s s' : State}
    (h : R s s') : OutcomesRelated R (Host.Core.run Sys2Proof.core n s) (Host.Core.run Sys2Proof.core n s') := by
  induction n generalizing s s' with
  | zero => exact h
  | succ n ih =>
    have hrel := hstep s s' h
    cases hs : step s with
    | next t =>
      rw [hs] at hrel
      obtain ⟨t', hs', ht⟩ := hrel.of_next
      rw [run_next n hs, run_next n hs']
      exact ih ht
    | fault f =>
      rw [hs] at hrel
      rw [run_fault n hs, run_fault n hrel.of_fault]
      exact rfl
    | refused r =>
      rw [hs] at hrel
      rw [run_refused n hs, run_refused n hrel.of_refused]
      exact rfl

end

/-! ### The unspecified registers -/

theorem SameButUnspecified.refl (s : State) : SameButUnspecified s s := .inl rfl

section
variable {s s' : State} (hi : s.phase = .idle) (hi' : s'.phase = .idle) (hr : s.responses = s'.responses)
include hi hi' hr

/-- In IDLE a command decides on the phase alone, and INIT, the only one admitted, responds or overwrites the whole context. -/
theorem exec_sameButUnspecified (i : Instr) (hp : s.pending = s'.pending) :
    OutcomesRelated SameButUnspecified (exec i s) (exec i s') := by
  have hdecide : SameDecisions s s' :=
    ⟨hi.trans hi'.symm, fun h => by simp [hi] at h, fun h => by simp [hi] at h, fun h => by simp [hi] at h⟩
  refine exec_related i hdecide (fun c d => ?_) (fun o k key => ?_) (fun b h => ?_) fun h => ?_
  · exact .inr ⟨hi, hi', hp, by rw [respond_responses, respond_responses, hr]⟩
  · exact .inl (initDone_congr o k key hp hr)
  · simp [hi] at h
  · simp [hi] at h

/-- Two IDLE states take the same input: nothing, a reset, a command, or a word that is none. -/
theorem step_sameButUnspecified_of_idle (hp : s.pending = s'.pending) :
    OutcomesRelated SameButUnspecified (step s) (step s') := by
  obtain ⟨h, h0⟩ | ⟨rest, h, h0⟩ | ⟨c, rest, h, ⟨why, hc, h0⟩ | ⟨i, hc, h0⟩⟩ := step_cases s
  · rw [h0, step_nothing_pending (hp ▸ h)]
    exact .inr ⟨hi, hi', hp, hr⟩
  · rw [h0, step_reset (hp ▸ h)]
    exact .inl (applyReset_congr rfl hr)
  · rw [h0, step_reserved (hp ▸ h) hc]
    exact rfl
  · rw [h0, step_command (hp ▸ h) hc]
    exact exec_sameButUnspecified (s := takeInput rest s) (s' := takeInput rest s') hi hi' hr i rfl

end

theorem step_sameButUnspecified (s s' : State) (h : SameButUnspecified s s') :
    OutcomesRelated SameButUnspecified (step s) (step s') := by
  obtain rfl | ⟨hi, hi', hp, hr⟩ := h
  · exact OutcomesRelated.refl SameButUnspecified.refl (step s)
  · exact step_sameButUnspecified_of_idle hi hi' hr hp

/-- Settles O45: every step keeps the relation (`step_sameButUnspecified`), so every run does. -/
theorem unspecifiedResetValuesNeverRead : Obligations.UnspecifiedResetValuesNeverRead :=
  fun n _ _ h => run_related step_sameButUnspecified n h

end Sys2Proof.Machine
end

section
/-! SUPPORT. The digests that the spec's source states: the function stated without the buffer, evaluated on three messages that
each fit one block. -/

namespace Sys2Proof.Machine

/-- Settles O54: each conjunct is a closed computation, one final compression written out as bytes, that the kernel evaluates by
itself. That the commands compute the same function is O52. -/
theorem knownDigests : Obligations.KnownDigests :=
  ⟨by decide +kernel, by decide +kernel, by decide +kernel⟩

end Sys2Proof.Machine
end
